-- ==== Sys2Proof/Word.lean ====
section
/-! DEFINITION. The widths of the machine (R5, R10, R12, R13, R50): bytes, 12-bit addresses, 16-bit instruction words,
and the index types of its fixed collections. -/

namespace Sys2Proof

/-- A byte: the width of a general register, of the delay timer and of a memory cell (R10, R15, R18). -/
abbrev Byte := BitVec 8

/-- A 12-bit address: the width of `PC`, of `I` and of a call-stack entry (R12, R13, R14). -/
abbrev Addr := BitVec 12

/-- A 16-bit instruction word (R50). -/
abbrev Word := BitVec 16

/-- Four bits of an instruction word (R51). -/
abbrev Nibble := BitVec 4

/-- The number of a general register, V0 to VF (R10). -/
abbrev RegIx := Fin 16

/-- The number of a key, 0x0 to 0xF (R19). -/
abbrev KeyIx := Fin 16

/-- A display column, 0 to 63 (R16). -/
abbrev Col := Fin 64

/-- A display row, 0 to 31 (R16). -/
abbrev Row := Fin 32

/-- The register that doubles as the only flag (R11). -/
abbrev vf : RegIx := 15

end Sys2Proof
end

