-- ==== Sys2Proof/Config.lean ====
section
/-! DEFINITION. What the spec leaves open while the machine runs (R6). Both are constants with no body, so no proof can
see a value of either and a claim about them holds for every value. The other open parameters are arguments of
construction (`FONT`, `ROM`: Machine/HostPort.lean) or belong to a claim (`END_OF_RUN`). -/

namespace Sys2Proof

/-- The bytes the environment draws for Cxkk (R101, D16): `Config.rnd k` is the byte of the k-th execution of Cxkk.
A free value: it obeys no law and nothing relates one draw to another. DESIGN CHOICE, log 16 (safe). -/
opaque Config.rnd : Nat → Byte

/-- The open parameter `CLS_MARKS_DIRTY` (R120, D18): does 00E0 set the display-updated flag. DESIGN CHOICE, log 18
(safe): the spec offers `false` as a default, and the model leaves it open. -/
opaque Config.clsMarksDirty : Bool

end Sys2Proof
end

