-- ==== Sys2Proof/Syntax.lean ====
section
/-! DEFINITION. The instructions: one constructor for each row of spec/opcode_table.json, in the table's order (R60).
Fields are those of R51: `x`, `y` registers, `kk` an 8-bit immediate, `nnn` a 12-bit address, `n` the low nibble. -/

namespace Sys2Proof

inductive Instr where
  /-- 00E0 (R120). -/
  | cls
  /-- 00EE (R70). -/
  | ret
  /-- 0nnn other than 00E0 and 00EE: a no-op (R57). -/
  | sys (nnn : Addr)
  /-- 1nnn (R71). -/
  | jp (nnn : Addr)
  /-- 2nnn (R72). -/
  | call (nnn : Addr)
  /-- 3xkk (R80). -/
  | seImm (x : RegIx) (kk : Byte)
  /-- 4xkk (R81). -/
  | sneImm (x : RegIx) (kk : Byte)
  /-- 5xyn (R82); the handler ignores `n` (R58), which is kept so that no bit of the word is lost. -/
  | seReg (x y : RegIx) (n : Nibble)
  /-- 6xkk (R90). -/
  | ldImm (x : RegIx) (kk : Byte)
  /-- 7xkk (R91). -/
  | addImm (x : RegIx) (kk : Byte)
  /-- 8xy0 (R92). -/
  | ldReg (x y : RegIx)
  /-- 8xy1 (R93). -/
  | orReg (x y : RegIx)
  /-- 8xy2 (R94). -/
  | andReg (x y : RegIx)
  /-- 8xy3 (R95). -/
  | xorReg (x y : RegIx)
  /-- 8xy4 (R96). -/
  | addReg (x y : RegIx)
  /-- 8xy5 (R97). -/
  | sub (x y : RegIx)
  /-- 8xy6 (R98); `y` is not read. -/
  | shr (x y : RegIx)
  /-- 8xy7 (R99). -/
  | subn (x y : RegIx)
  /-- 8xyE (R100); `y` is not read. -/
  | shl (x y : RegIx)
  /-- 8xyn with n no sub-case of class 8: a no-op (R57). -/
  | nop8 (x y : RegIx) (n : Nibble)
  /-- 9xyn (R83); the handler ignores `n` (R58), which is kept so that no bit of the word is lost. -/
  | sneReg (x y : RegIx) (n : Nibble)
  /-- Annn (R110). -/
  | ldI (nnn : Addr)
  /-- Bnnn (R73). -/
  | jpV0 (nnn : Addr)
  /-- Cxkk (R101). -/
  | rnd (x : RegIx) (kk : Byte)
  /-- Dxyn (R121); `n` is a row count, 0 to 15. -/
  | drw (x y : RegIx) (n : Fin 16)
  /-- Ex9E (R84). -/
  | skp (x : RegIx)
  /-- ExA1 (R85). -/
  | sknp (x : RegIx)
  /-- Exkk with kk no sub-case of class E: a no-op (R57). -/
  | nope (x : RegIx) (kk : Byte)
  /-- Fx07 (R130). -/
  | ldVxDt (x : RegIx)
  /-- Fx0A (R131). -/
  | ldVxK (x : RegIx)
  /-- Fx15 (R132). -/
  | ldDtVx (x : RegIx)
  /-- Fx18 (R133). -/
  | ldStVx (x : RegIx)
  /-- Fx1E (R111). -/
  | addI (x : RegIx)
  /-- Fx29 (R112). -/
  | ldF (x : RegIx)
  /-- Fx33 (R113). -/
  | ldB (x : RegIx)
  /-- Fx55 (R114). -/
  | stRegs (x : RegIx)
  /-- Fx65 (R115). -/
  | ldRegs (x : RegIx)
  /-- Fxkk with kk no sub-case of class F: a no-op (R57). -/
  | nopf (x : RegIx) (kk : Byte)
  deriving DecidableEq, Repr

end Sys2Proof
end

