-- ==== Sys2Proof/WellFormed.lean ====
section
/-! DEFINITION. Which instructions some word encodes. Field widths are in the types; the four no-op rows of R57 must
hold a word that no more specific row of their class matches (R60), and these are the only checks. -/

namespace Sys2Proof

/-- The 12-bit remainders of the two whole words of class 0, 00E0 and 00EE (R59). -/
def class0SubCases : List Addr := [0x0E0, 0x0EE]

/-- The low nibbles that select an operation of class 8 (R56). -/
def class8SubCases : List Nibble := [0x0, 0x1, 0x2, 0x3, 0x4, 0x5, 0x6, 0x7, 0xE]

/-- The low bytes that select an operation of class E (R56). -/
def classESubCases : List Byte := [0x9E, 0xA1]

/-- The low bytes that select an operation of class F (R56). -/
def classFSubCases : List Byte := [0x07, 0x0A, 0x15, 0x18, 0x1E, 0x29, 0x33, 0x55, 0x65]

/-- An instruction is well formed when a word encodes it: a no-op row holds no sub-case of its class (R57, R60). -/
def Instr.wf : Instr → Bool
  | .sys nnn => !class0SubCases.contains nnn
  | .nop8 _ _ n => !class8SubCases.contains n
  | .nope _ kk => !classESubCases.contains kk
  | .nopf _ kk => !classFSubCases.contains kk
  | .cls | .ret | .jp _ | .call _ | .seImm _ _ | .sneImm _ _ | .seReg _ _ _ | .ldImm _ _ | .addImm _ _ => true
  | .ldReg _ _ | .orReg _ _ | .andReg _ _ | .xorReg _ _ | .addReg _ _ | .sub _ _ | .shr _ _ | .subn _ _ => true
  | .shl _ _ | .sneReg _ _ _ | .ldI _ | .jpV0 _ | .rnd _ _ | .drw _ _ _ | .skp _ | .sknp _ => true
  | .ldVxDt _ | .ldVxK _ | .ldDtVx _ | .ldStVx _ | .addI _ | .ldF _ | .ldB _ | .stRegs _ | .ldRegs _ => true

end Sys2Proof
end

