-- ==== Sys2Proof/Decode.lean ====
section
/-! DEFINITION. From words and bytes to instructions and back: the fields of R51, the dispatch of R56 to R59, the encoder
written from the same encodings, and the opcode map of R60 as data. -/

namespace Sys2Proof

/-! The fields of a word `w` (R51). -/

/-- The opcode class, `w[15:12]`. -/
def wordClass (w : Word) : Nibble := w.extractLsb' 12 4

/-- The field `x`, `w[11:8]`, as a register number. -/
def fieldX (w : Word) : RegIx := (w.extractLsb' 8 4).toFin

/-- The field `y`, `w[7:4]`, as a register number. -/
def fieldY (w : Word) : RegIx := (w.extractLsb' 4 4).toFin

/-- The field `n`, `w[3:0]`. -/
def fieldN (w : Word) : Nibble := w.extractLsb' 0 4

/-- The field `kk`, `w[7:0]`. -/
def fieldKk (w : Word) : Byte := w.extractLsb' 0 8

/-- The field `nnn`, `w[11:0]`. -/
def fieldNnn (w : Word) : Addr := w.extractLsb' 0 12

/-! The sub-cases of the classes that have any (R56). A word that matches none is a no-op (R57). -/

/-- Class 0 matches on the whole word (R59). DESIGN CHOICE of the spec (D5), log 5. -/
def decodeClass0 (w : Word) : Instr :=
  if w = 0x00E0 then .cls else if w = 0x00EE then .ret else .sys (fieldNnn w)

/-- Class 8 is selected by `n` (R56). -/
def decodeClass8 (w : Word) : Instr :=
  match fieldN w with
  | 0x0 => .ldReg (fieldX w) (fieldY w)
  | 0x1 => .orReg (fieldX w) (fieldY w)
  | 0x2 => .andReg (fieldX w) (fieldY w)
  | 0x3 => .xorReg (fieldX w) (fieldY w)
  | 0x4 => .addReg (fieldX w) (fieldY w)
  | 0x5 => .sub (fieldX w) (fieldY w)
  | 0x6 => .shr (fieldX w) (fieldY w)
  | 0x7 => .subn (fieldX w) (fieldY w)
  | 0xE => .shl (fieldX w) (fieldY w)
  | n => .nop8 (fieldX w) (fieldY w) n

/-- Class E is selected by `kk` (R56). -/
def decodeClassE (w : Word) : Instr :=
  match fieldKk w with
  | 0x9E => .skp (fieldX w)
  | 0xA1 => .sknp (fieldX w)
  | kk => .nope (fieldX w) kk

/-- Class F is selected by `kk` (R56). -/
def decodeClassF (w : Word) : Instr :=
  match fieldKk w with
  | 0x07 => .ldVxDt (fieldX w)
  | 0x0A => .ldVxK (fieldX w)
  | 0x15 => .ldDtVx (fieldX w)
  | 0x18 => .ldStVx (fieldX w)
  | 0x1E => .addI (fieldX w)
  | 0x29 => .ldF (fieldX w)
  | 0x33 => .ldB (fieldX w)
  | 0x55 => .stRegs (fieldX w)
  | 0x65 => .ldRegs (fieldX w)
  | kk => .nopf (fieldX w) kk

/-- Decoding of a word: total, since every word is an instruction (R54), by its class (R56). Classes 5 and 9 ignore `n`
(R58; the spec's choice D6, log 6). -/
def decodeWord (w : Word) : Instr :=
  match wordClass w with
  | 0x0 => decodeClass0 w
  | 0x1 => .jp (fieldNnn w)
  | 0x2 => .call (fieldNnn w)
  | 0x3 => .seImm (fieldX w) (fieldKk w)
  | 0x4 => .sneImm (fieldX w) (fieldKk w)
  | 0x5 => .seReg (fieldX w) (fieldY w) (fieldN w)
  | 0x6 => .ldImm (fieldX w) (fieldKk w)
  | 0x7 => .addImm (fieldX w) (fieldKk w)
  | 0x8 => decodeClass8 w
  | 0x9 => .sneReg (fieldX w) (fieldY w) (fieldN w)
  | 0xA => .ldI (fieldNnn w)
  | 0xB => .jpV0 (fieldNnn w)
  | 0xC => .rnd (fieldX w) (fieldKk w)
  | 0xD => .drw (fieldX w) (fieldY w) (fieldN w).toFin
  | 0xE => decodeClassE w
  | _ => decodeClassF w

/-- Why bytes give no instruction: the one reason is that there are fewer than two of them (R50). A fetch always reads
two (R33), so no step meets it. Safe. -/
inductive DecodeReject where
  | truncated
  deriving DecidableEq, Repr

/-- Two bytes as an instruction word, the first the high one (R33, R50). -/
def wordOfBytes (hi lo : Byte) : Word := hi ++ lo

/-- Decoding of bytes: the first two make the word (R50); the rest is given back. -/
def decodeBytes : List Byte → Except DecodeReject (Instr × List Byte)
  | hi :: lo :: rest => .ok (decodeWord (wordOfBytes hi lo), rest)
  | [_] => .error .truncated
  | [] => .error .truncated

/-! The encoder. -/

/-- The four bits of a register number. -/
def regBits (r : RegIx) : Nibble := .ofFin r

/-- The word of an instruction, from the encodings of R52 and R60: the class nibble, then the row's fields and fixed bits. -/
def encode : Instr → Word
  | .cls => 0x00E0
  | .ret => 0x00EE
  | .sys nnn => 0x0#4 ++ nnn
  | .jp nnn => 0x1#4 ++ nnn
  | .call nnn => 0x2#4 ++ nnn
  | .seImm x kk => 0x3#4 ++ regBits x ++ kk
  | .sneImm x kk => 0x4#4 ++ regBits x ++ kk
  | .seReg x y n => 0x5#4 ++ regBits x ++ regBits y ++ n
  | .ldImm x kk => 0x6#4 ++ regBits x ++ kk
  | .addImm x kk => 0x7#4 ++ regBits x ++ kk
  | .ldReg x y => 0x8#4 ++ regBits x ++ regBits y ++ 0x0#4
  | .orReg x y => 0x8#4 ++ regBits x ++ regBits y ++ 0x1#4
  | .andReg x y => 0x8#4 ++ regBits x ++ regBits y ++ 0x2#4
  | .xorReg x y => 0x8#4 ++ regBits x ++ regBits y ++ 0x3#4
  | .addReg x y => 0x8#4 ++ regBits x ++ regBits y ++ 0x4#4
  | .sub x y => 0x8#4 ++ regBits x ++ regBits y ++ 0x5#4
  | .shr x y => 0x8#4 ++ regBits x ++ regBits y ++ 0x6#4
  | .subn x y => 0x8#4 ++ regBits x ++ regBits y ++ 0x7#4
  | .shl x y => 0x8#4 ++ regBits x ++ regBits y ++ 0xE#4
  | .nop8 x y n => 0x8#4 ++ regBits x ++ regBits y ++ n
  | .sneReg x y n => 0x9#4 ++ regBits x ++ regBits y ++ n
  | .ldI nnn => 0xA#4 ++ nnn
  | .jpV0 nnn => 0xB#4 ++ nnn
  | .rnd x kk => 0xC#4 ++ regBits x ++ kk
  | .drw x y n => 0xD#4 ++ regBits x ++ regBits y ++ regBits n
  | .skp x => 0xE#4 ++ regBits x ++ 0x9E#8
  | .sknp x => 0xE#4 ++ regBits x ++ 0xA1#8
  | .nope x kk => 0xE#4 ++ regBits x ++ kk
  | .ldVxDt x => 0xF#4 ++ regBits x ++ 0x07#8
  | .ldVxK x => 0xF#4 ++ regBits x ++ 0x0A#8
  | .ldDtVx x => 0xF#4 ++ regBits x ++ 0x15#8
  | .ldStVx x => 0xF#4 ++ regBits x ++ 0x18#8
  | .addI x => 0xF#4 ++ regBits x ++ 0x1E#8
  | .ldF x => 0xF#4 ++ regBits x ++ 0x29#8
  | .ldB x => 0xF#4 ++ regBits x ++ 0x33#8
  | .stRegs x => 0xF#4 ++ regBits x ++ 0x55#8
  | .ldRegs x => 0xF#4 ++ regBits x ++ 0x65#8
  | .nopf x kk => 0xF#4 ++ regBits x ++ kk

/-- The byte of a word at the lower address: bits 15:8 (R33). -/
def highByte (w : Word) : Byte := w.extractLsb' 8 8

/-- The byte of a word at the higher address: bits 7:0 (R33). -/
def lowByte (w : Word) : Byte := w.extractLsb' 0 8

/-- The two bytes of an instruction in the order memory holds them (R33, R50). -/
def encodeBytes (i : Instr) : List Byte := [highByte (encode i), lowByte (encode i)]

/-! The opcode map as data (R60). -/

/-- One row of the map: a word `w` matches when `w & mask` is `pattern`. -/
structure OpcodeRow where
  mnemonic : String
  mask     : Word
  pattern  : Word
  deriving DecidableEq, Repr

/-- Rows of classes 0 to 7, in the order of R60. -/
def opcodeRowsLow : List OpcodeRow :=
  [⟨"CLS", 0xFFFF, 0x00E0⟩, ⟨"RET", 0xFFFF, 0x00EE⟩, ⟨"SYS", 0xF000, 0x0000⟩, ⟨"JP", 0xF000, 0x1000⟩,
   ⟨"CALL", 0xF000, 0x2000⟩, ⟨"SE_IMM", 0xF000, 0x3000⟩, ⟨"SNE_IMM", 0xF000, 0x4000⟩, ⟨"SE_REG", 0xF000, 0x5000⟩,
   ⟨"LD_IMM", 0xF000, 0x6000⟩, ⟨"ADD_IMM", 0xF000, 0x7000⟩]

/-- Rows of class 8. -/
def opcodeRows8 : List OpcodeRow :=
  [⟨"LD_REG", 0xF00F, 0x8000⟩, ⟨"OR", 0xF00F, 0x8001⟩, ⟨"AND", 0xF00F, 0x8002⟩, ⟨"XOR", 0xF00F, 0x8003⟩,
   ⟨"ADD_REG", 0xF00F, 0x8004⟩, ⟨"SUB", 0xF00F, 0x8005⟩, ⟨"SHR", 0xF00F, 0x8006⟩, ⟨"SUBN", 0xF00F, 0x8007⟩,
   ⟨"SHL", 0xF00F, 0x800E⟩, ⟨"NOP8", 0xF000, 0x8000⟩]

/-- Rows of classes 9 to E. -/
def opcodeRowsMid : List OpcodeRow :=
  [⟨"SNE_REG", 0xF000, 0x9000⟩, ⟨"LD_I", 0xF000, 0xA000⟩, ⟨"JP_V0", 0xF000, 0xB000⟩, ⟨"RND", 0xF000, 0xC000⟩,
   ⟨"DRW", 0xF000, 0xD000⟩, ⟨"SKP", 0xF0FF, 0xE09E⟩, ⟨"SKNP", 0xF0FF, 0xE0A1⟩, ⟨"NOPE", 0xF000, 0xE000⟩]

/-- Rows of class F. -/
def opcodeRowsF : List OpcodeRow :=
  [⟨"LD_VX_DT", 0xF0FF, 0xF007⟩, ⟨"LD_VX_K", 0xF0FF, 0xF00A⟩, ⟨"LD_DT_VX", 0xF0FF, 0xF015⟩,
   ⟨"LD_ST_VX", 0xF0FF, 0xF018⟩, ⟨"ADD_I", 0xF0FF, 0xF01E⟩, ⟨"LD_F", 0xF0FF, 0xF029⟩, ⟨"LD_B", 0xF0FF, 0xF033⟩,
   ⟨"ST_REGS", 0xF0FF, 0xF055⟩, ⟨"LD_REGS", 0xF0FF, 0xF065⟩, ⟨"NOPF", 0xF000, 0xF000⟩]

/-- The whole map in priority order (R60). -/
def opcodeTable : List OpcodeRow := opcodeRowsLow ++ opcodeRows8 ++ opcodeRowsMid ++ opcodeRowsF

/-- Does a word match a row (R60). -/
def OpcodeRow.matches (row : OpcodeRow) (w : Word) : Bool := w &&& row.mask == row.pattern

/-- How many bits a mask has (R60). -/
def maskBits (m : Word) : Nat := (List.range 16).countP m.getLsbD

/-- The name an instruction's row has in the map (R60). -/
def Instr.mnemonic : Instr → String
  | .cls => "CLS"
  | .ret => "RET"
  | .sys _ => "SYS"
  | .jp _ => "JP"
  | .call _ => "CALL"
  | .seImm _ _ => "SE_IMM"
  | .sneImm _ _ => "SNE_IMM"
  | .seReg _ _ _ => "SE_REG"
  | .ldImm _ _ => "LD_IMM"
  | .addImm _ _ => "ADD_IMM"
  | .ldReg _ _ => "LD_REG"
  | .orReg _ _ => "OR"
  | .andReg _ _ => "AND"
  | .xorReg _ _ => "XOR"
  | .addReg _ _ => "ADD_REG"
  | .sub _ _ => "SUB"
  | .shr _ _ => "SHR"
  | .subn _ _ => "SUBN"
  | .shl _ _ => "SHL"
  | .nop8 _ _ _ => "NOP8"
  | .sneReg _ _ _ => "SNE_REG"
  | .ldI _ => "LD_I"
  | .jpV0 _ => "JP_V0"
  | .rnd _ _ => "RND"
  | .drw _ _ _ => "DRW"
  | .skp _ => "SKP"
  | .sknp _ => "SKNP"
  | .nope _ _ => "NOPE"
  | .ldVxDt _ => "LD_VX_DT"
  | .ldVxK _ => "LD_VX_K"
  | .ldDtVx _ => "LD_DT_VX"
  | .ldStVx _ => "LD_ST_VX"
  | .addI _ => "ADD_I"
  | .ldF _ => "LD_F"
  | .ldB _ => "LD_B"
  | .stRegs _ => "ST_REGS"
  | .ldRegs _ => "LD_REGS"
  | .nopf _ _ => "NOPF"

/-- The instruction the decoder reads from an instruction whose bits are `w`, numbered as spec/opcode_table.json numbers
them: bit 0 the least significant bit of the one 16-bit word. Bits at or above `nbits` are 0; an instruction of more than
16 bits does not exist (R50). Log 29. -/
def decodeTableWord (nbits w : Nat) : Option Instr :=
  if nbits ≤ 16 then
    let word := BitVec.ofNat 16 (w % 2 ^ nbits)
    match decodeBytes [highByte word, lowByte word] with
    | .ok (i, _) => some i
    | .error _ => none
  else none

end Sys2Proof
end

