-- ==== Sys2Proof/Machine/State.lean ====
section
/-! DEFINITION. The machine's state, all of 10_state.md, as plain data, and its value at reset. -/

namespace Sys2Proof.Machine

/-- Memory as a list of (address, byte) pairs in one canonical form (`Memory.wf` in Machine/Ops.lean): addresses strictly
rising and below 0x1000, and no entry equal to what an unlisted address reads as (R15, R30). -/
abbrev Memory := List Host.Cell

/-- Why the machine stops with a fault. It has no constructor, because the machine has none to raise: "no exceptions
propagate out of `step`" (R140, R141, R143). Log 30. Safe. -/
inductive Fault where
  deriving DecidableEq, Repr

/-- Why a step is given no meaning. -/
inductive Refusal where
  /-- An instruction whose arm in `exec` has no meaning yet, by its mnemonic. No arm raises it: every instruction has its
  meaning. Safe. -/
  | notModelled (mnemonic : String)
  deriving DecidableEq, Repr

/-- The state of the core (R10 to R20), with the step's output latch and the counter of random draws. -/
structure State where
  /-- V0 to VF (R10, R11). -/
  v     : Vector Byte 16
  /-- The index register (R12). -/
  i     : Addr
  /-- The program counter (R13). -/
  pc    : Addr
  /-- The call stack, oldest entry first: its last element is the top (R14). -/
  stack : List Addr
  /-- Memory (R15). -/
  mem   : Memory
  /-- The display, `px[x][y]` the pixel of column x and row y (R16, R122). -/
  px    : Vector (Vector Bool 32) 64
  /-- The display-updated flag (R17). -/
  dirty : Bool
  /-- The delay timer (R18). -/
  dt    : Byte
  /-- The key states, true = pressed (R19). -/
  key   : Vector Bool 16
  /-- The key-wait register (R20). -/
  wait  : Option RegIx
  /-- `LAST`, what the last step returned (R22): an output the model latches here. DESIGN CHOICE, log 22. -/
  last  : Word
  /-- The model's own: how many bytes Cxkk has drawn, the index of the next one in `Config.rnd`. DESIGN CHOICE, log 16. -/
  draws : Nat
  deriving DecidableEq, Repr

/-- The machine right after reset, which is construction (R170, R173), with the default `FONT` (an unlisted address reads
as that construction leaves it: `unlistedByte` in Machine/Ops.lean; PRESUMED, log 17) and the empty program (DESIGN
CHOICE, log 21). The source states no reset value for `i`, `stack`, `wait` (log 28) and `dirty` (log 19); `last` (log 22)
and `draws` (log 16) are the model's own. -/
def State.reset : State where
  v     := Vector.replicate 16 0
  i     := 0
  pc    := 0x200
  stack := []
  mem   := []
  px    := Vector.replicate 64 (Vector.replicate 32 false)
  dirty := false
  dt    := 0
  key   := Vector.replicate 16 false
  wait  := none
  last  := 0x0000
  draws := 0

end Sys2Proof.Machine
end

