-- ==== Sys2Proof/Machine/Ops.lean ====
section
/-! DEFINITION. The named operations over registers, memory, stack, display, timer and keypad; every meaning is written
over these. There is no operation that takes an exception and none that returns from one: the machine has neither
(R140, R153, R154). -/

namespace Sys2Proof.Machine

/-! Memory. -/

/-- The default font, digits 0 to 7 (R172; from general knowledge, as the spec says. PRESUMED, log 17). -/
def fontDigits0to7 : List Byte :=
  [0xF0, 0x90, 0x90, 0x90, 0xF0] ++ [0x20, 0x60, 0x20, 0x20, 0x70] ++
  [0xF0, 0x10, 0xF0, 0x80, 0xF0] ++ [0xF0, 0x10, 0xF0, 0x10, 0xF0] ++
  [0x90, 0x90, 0xF0, 0x10, 0x10] ++ [0xF0, 0x80, 0xF0, 0x10, 0xF0] ++
  [0xF0, 0x80, 0xF0, 0x90, 0xF0] ++ [0xF0, 0x10, 0x20, 0x40, 0x40]

/-- The default font, digits 8 to F (R172; PRESUMED, log 17). -/
def fontDigits8toF : List Byte :=
  [0xF0, 0x90, 0xF0, 0x90, 0xF0] ++ [0xF0, 0x90, 0xF0, 0x10, 0xF0] ++
  [0xF0, 0x90, 0xF0, 0x90, 0x90] ++ [0xE0, 0x90, 0xE0, 0x90, 0xE0] ++
  [0xF0, 0x80, 0x80, 0x80, 0xF0] ++ [0xE0, 0x90, 0x90, 0x90, 0xE0] ++
  [0xF0, 0x80, 0xF0, 0x80, 0xF0] ++ [0xF0, 0x80, 0xF0, 0x80, 0x80]

/-- The 80 bytes of the default `FONT`, glyph d at offset 5·d (R172; PRESUMED, log 17). -/
def defaultFont : List Byte := fontDigits0to7 ++ fontDigits8toF

/-- What an address that memory does not list reads as: the content that construction with the default font and an empty
program leaves there, the font below 0x050 and zero above (R31, R171). Log 27. -/
def unlistedByte (a : Nat) : Byte := defaultFont.getD a 0

/-- The byte memory holds at an address. -/
def Memory.get : Memory → Nat → Byte
  | [], a => unlistedByte a
  | (k, b) :: rest, a => if k = a then b else Memory.get rest a

/-- Memory with one byte replaced, in canonical form again: a byte equal to what the unlisted address reads as is not
listed. -/
def Memory.put : Memory → Nat → Byte → Memory
  | [], a, b => if b = unlistedByte a then [] else [(a, b)]
  | (k, c) :: rest, a, b =>
    if k < a then (k, c) :: Memory.put rest a b
    else
      let tail := if k = a then rest else (k, c) :: rest
      if b = unlistedByte a then tail else (a, b) :: tail

/-- The canonical form: addresses strictly rising and below 0x1000, no entry that says what an unlisted address reads as. -/
def Memory.wf (m : Memory) : Bool :=
  decide (m.Pairwise fun c d => c.1 < d.1) && m.all fun c => decide (c.1 < 0x1000) && c.2 != unlistedByte c.1

/-- The effective address `EA(a) = a mod 0x1000` (R32). Wrapping is the spec's own choice (D1), log 1. -/
def ea (a : Nat) : Nat := a % 0x1000

/-- `MemRead(a, 1)` (R32). -/
def memRead (s : State) (a : Nat) : Byte := Memory.get s.mem (ea a)

/-- `MemWrite(a, 1, b)` (R32). -/
def memWrite (s : State) (a : Nat) (b : Byte) : State := { s with mem := Memory.put s.mem (ea a) b }

/-- Bytes written one after another at ascending addresses (R34). -/
def storeBytes (s : State) (a : Nat) : List Byte → State
  | [] => s
  | b :: bs => storeBytes (memWrite s a b) (a + 1) bs

/-! Registers. -/

/-- `V[r]` (R10). -/
def reg (s : State) (r : RegIx) : Byte := s.v[r.val]

/-- `V[r] <- b` (R10). -/
def setReg (s : State) (r : RegIx) (b : Byte) : State := { s with v := s.v.set r.val b }

/-- `V[0]`, ..., `V[n - 1]` loaded from ascending addresses, in that order (R34, R115). -/
def loadRegs (s : State) (a : Nat) : Nat → State
  | 0 => s
  | n + 1 =>
    let t := loadRegs s a n
    setReg t (Fin.ofNat 16 n) (memRead t (a + n))

/-- `V[0]`, ..., `V[x]` in order (R114). -/
def regsUpTo (s : State) (x : RegIx) : List Byte := s.v.toList.take (x.val + 1)

/-- `I <- a` (R12). -/
def setI (s : State) (a : Addr) : State := { s with i := a }

/-- `PC <- a` (R13). -/
def setPc (s : State) (a : Addr) : State := { s with pc := a }

/-- `PC <- (PC + 2) mod 0x1000`. The reduction is the spec's own choice (D2), log 2. -/
def advancePc (s : State) : State := setPc s (s.pc + 2)

/-- "Skip next instruction": `PC` advances by a further 2 when the condition holds (41_skip.md, R13). -/
def skipIf (cond : Bool) (s : State) : State := if cond then advancePc s else s

/-! The call stack (R14). -/

/-- `push(a)`. -/
def push (s : State) (a : Addr) : State := { s with stack := s.stack ++ [a] }

/-- The top of the stack, none when it is empty. -/
def stackTop (s : State) : Option Addr := s.stack.getLast?

/-- The stack without its top. -/
def dropTop (s : State) : State := { s with stack := s.stack.dropLast }

/-! The display (R16, R17). -/

/-- `PX[x][y]`. -/
def pixel (s : State) (x : Col) (y : Row) : Bool := s.px[x.val][y.val]

/-- `PX[x][y] <- PX[x][y] ^ 1`. -/
def flipPixel (s : State) (x : Col) (y : Row) : State :=
  { s with px := s.px.set x.val (s.px[x.val].set y.val (!pixel s x y)) }

/-- Every pixel becomes 0. -/
def clearPixels (s : State) : State := { s with px := Vector.replicate 64 (Vector.replicate 32 false) }

/-- `DIRTY <- b`. -/
def setDirty (s : State) (b : Bool) : State := { s with dirty := b }

/-! Timer, keypad, key-wait, output and random draws. -/

/-- `DT <- b` (R18). -/
def setDt (s : State) (b : Byte) : State := { s with dt := b }

/-- One tick: `DT` goes down by one and stays at zero (R156). -/
def tickTimer (s : State) : State := setDt s (if s.dt = 0 then 0 else s.dt - 1)

/-- `KEY[k]` (R19). -/
def keyState (s : State) (k : KeyIx) : Bool := s.key[k.val]

/-- `KEY[k] <- b` (R19). -/
def setKey (s : State) (k : KeyIx) (b : Bool) : State := { s with key := s.key.set k.val b }

/-- `WAIT <- w` (R20). -/
def setWait (s : State) (w : Option RegIx) : State := { s with wait := w }

/-- `LAST <- w` (R22). -/
def setLast (s : State) (w : Word) : State := { s with last := w }

/-- One more byte of the random stream is used up (R101, D16; log 16). -/
def nextDraw (s : State) : State := { s with draws := s.draws + 1 }

/-! Fetch. -/

/-- `MemRead(PC, 2)`: the byte at `PC` is the high byte, the one at `PC + 1` the low (R33); any parity of `PC` (R35). -/
def fetchWord (s : State) : Word := wordOfBytes (memRead s s.pc.toNat) (memRead s (s.pc.toNat + 1))

/-- The state in which the next step fetches and runs the word `w`: its two bytes at `PC` in memory order (R33), and no
key-wait pending, since a pending one suspends the fetch (R55 line 2). Log 21. -/
def placeWord (s : State) (w : Word) : State := setWait (storeBytes s s.pc.toNat [highByte w, lowByte w]) none

end Sys2Proof.Machine
end

