-- ==== Sys2Proof/Machine/Flags.lean ====
section
/-! DEFINITION. The flag computations, each 0 or 1 (R11), and the one way class 8 writes a result and its flag (R89). -/

namespace Sys2Proof.Machine

/-- A flag as the byte VF holds. -/
def flagByte (b : Bool) : Byte := if b then 1 else 0

/-- The carry of `a + b`: 1 if the sum is over 255 (R96). -/
def carryFlag (a b : Byte) : Byte := flagByte (decide (a.toNat + b.toNat > 255))

/-- The no-borrow flag of `a - b`: 1 if `a >= b` (R97, R99). That equality borrows nothing is the spec's reading (D8), log 8. -/
def noBorrowFlag (a b : Byte) : Byte := flagByte (decide (b.toNat ≤ a.toNat))

/-- The bit a right shift by one shifts out: `a & 1` (R98). -/
def shiftedOutLow (a : Byte) : Byte := a &&& 1

/-- The bit a left shift by one shifts out: `(a >> 7) & 1` (R100). -/
def shiftedOutHigh (a : Byte) : Byte := (a >>> 7) &&& 1

/-- The result to `V[x]` first, the flag to `V[0xF]` last, so with x = 0xF the flag remains (R89). -/
def writeResultFlag (s : State) (x : RegIx) (result flag : Byte) : State := setReg (setReg s x result) vf flag

end Sys2Proof.Machine
end

