-- ==== Sys2Proof/Machine/Operands.lean ====
section
/-! DEFINITION. The operand forms (R53, R37): zero extension, the index of a key, memory at `I` plus an offset, the
decimal digits of Fx33, the glyph address of Fx29, the position and the bits of a sprite, the random byte. Register
operands `V[x]`, `V[y]` are `reg`; the immediates `kk` and `nnn` are used as they are, unsigned. -/

namespace Sys2Proof.Machine

/-- `zext_12(b)` (R53, R111). -/
def zext12 (b : Byte) : Addr := b.setWidth 12

/-- `zext_8(k)` of a key code (R145). -/
def zext8 (k : KeyIx) : Byte := BitVec.ofNat 8 k.val

/-- The key that a register's value selects: its low four bits (R84). The spec's own choice (D12), log 12. -/
def keyIndex (b : Byte) : KeyIx := Fin.ofNat 16 (b &&& 0x0F).toNat

/-- The address of the first memory operand of Dxyn, Fx33, Fx55 and Fx65: `I` (R37). -/
def indexBase (s : State) : Nat := s.i.toNat

/-- The decimal digits of a byte, hundreds first, each a whole byte (R113). -/
def bcdDigits (b : Byte) : List Byte :=
  [BitVec.ofNat 8 (b.toNat / 100), BitVec.ofNat 8 (b.toNat / 10 % 10), BitVec.ofNat 8 (b.toNat % 10)]

/-- The address of the font glyph of a digit, `(zext_12(b) * 5) mod 0x1000` (R112). -/
def glyphAddress (b : Byte) : Addr := zext12 b * 5

/-- The column of pixel `c` of a sprite row whose left edge is `x0`: `(x0 + c) mod 64` (R121). Every pixel wraps: the
spec's own choice (D10), log 10. -/
def spriteCol (x0 : Byte) (c : Nat) : Col := Fin.ofNat 64 (x0.toNat + c)

/-- The row of sprite row `r` of a sprite whose top edge is `y0`: `(y0 + r) mod 32` (R121; D10, log 10). -/
def spriteRow (y0 : Byte) (r : Nat) : Row := Fin.ofNat 32 (y0.toNat + r)

/-- Pixel `c` of a sprite byte, `(b >> (7 - c)) & 1`: c = 0 is bit 7, the leftmost (R121, R122). -/
def spriteBit (b : Byte) (c : Nat) : Bool := b.getLsbD (7 - c)

/-- The byte drawn for this execution of Cxkk: the free value `Config.rnd` at the next index (R101; log 16). -/
def randomByte (s : State) : Byte := Config.rnd s.draws

end Sys2Proof.Machine
end

