-- ==== Sys2Proof/Machine/Alu.lean ====
section
/-! DEFINITION. Register load and arithmetic (42_alu.md). Values are unsigned bytes and results wrap modulo 256 (R88).
Operands are read from the entry state `s` before anything is written (R88; the spec's own choice D11, log 11). VF is
written only where R11 says so (D7, log 7). -/

namespace Sys2Proof.Machine

/-- 6xkk: `V[x] <- kk` (R90). -/
def execLdImm (x : RegIx) (kk : Byte) (s : State) : Host.Outcome State Fault Refusal := .next (setReg s x kk)

/-- 7xkk: `V[x] <- (V[x] + kk) mod 256`, no flag (R91). -/
def execAddImm (x : RegIx) (kk : Byte) (s : State) : Host.Outcome State Fault Refusal :=
  .next (setReg s x (reg s x + kk))

/-- 8xy0: `V[x] <- V[y]` (R92). -/
def execLdReg (x y : RegIx) (s : State) : Host.Outcome State Fault Refusal := .next (setReg s x (reg s y))

/-- 8xy1: `V[x] <- V[x] | V[y]` (R93). -/
def execOrReg (x y : RegIx) (s : State) : Host.Outcome State Fault Refusal :=
  .next (setReg s x (reg s x ||| reg s y))

/-- 8xy2: `V[x] <- V[x] & V[y]` (R94). -/
def execAndReg (x y : RegIx) (s : State) : Host.Outcome State Fault Refusal :=
  .next (setReg s x (reg s x &&& reg s y))

/-- 8xy3: `V[x] <- V[x] ^ V[y]` (R95). -/
def execXorReg (x y : RegIx) (s : State) : Host.Outcome State Fault Refusal :=
  .next (setReg s x (reg s x ^^^ reg s y))

/-- 8xy4: the sum modulo 256, VF the carry (R96). -/
def execAddReg (x y : RegIx) (s : State) : Host.Outcome State Fault Refusal :=
  .next (writeResultFlag s x (reg s x + reg s y) (carryFlag (reg s x) (reg s y)))

/-- 8xy5: `V[x] - V[y]` modulo 256, VF = no borrow (R97; D8, log 8). -/
def execSub (x y : RegIx) (s : State) : Host.Outcome State Fault Refusal :=
  .next (writeResultFlag s x (reg s x - reg s y) (noBorrowFlag (reg s x) (reg s y)))

/-- 8xy6: `V[x] >> 1`, VF the bit shifted out; `V[y]` is not read (R98; D9, log 9). -/
def execShr (x _y : RegIx) (s : State) : Host.Outcome State Fault Refusal :=
  .next (writeResultFlag s x (reg s x >>> 1) (shiftedOutLow (reg s x)))

/-- 8xy7: `V[y] - V[x]` modulo 256, VF = no borrow (R99; D8, log 8). -/
def execSubn (x y : RegIx) (s : State) : Host.Outcome State Fault Refusal :=
  .next (writeResultFlag s x (reg s y - reg s x) (noBorrowFlag (reg s y) (reg s x)))

/-- 8xyE: `(V[x] << 1) mod 256`, VF the bit shifted out; `V[y]` is not read (R100; D9, log 9). -/
def execShl (x _y : RegIx) (s : State) : Host.Outcome State Fault Refusal :=
  .next (writeResultFlag s x (reg s x <<< 1) (shiftedOutHigh (reg s x)))

/-- Cxkk: `V[x] <- rnd & kk`, `rnd` a byte drawn afresh (R101; free value, log 16). -/
def execRnd (x : RegIx) (kk : Byte) (s : State) : Host.Outcome State Fault Refusal :=
  .next (nextDraw (setReg s x (randomByte s &&& kk)))

end Sys2Proof.Machine
end

