-- ==== Sys2Proof/Machine/Control.lean ====
section
/-! DEFINITION. Control transfer (40_control.md). On entry `PC` already holds the address of the next instruction (R55). -/

namespace Sys2Proof.Machine

/-- 00EE: pops the stack into `PC`; an empty stack gives 0x200 and stays empty (R70). -/
def execRet (s : State) : Host.Outcome State Fault Refusal :=
  match stackTop s with
  | some a => .next (setPc (dropTop s) a)
  | none => .next (setPc s 0x200)

/-- 1nnn: `PC <- nnn` (R71). -/
def execJp (nnn : Addr) (s : State) : Host.Outcome State Fault Refusal := .next (setPc s nnn)

/-- 2nnn: pushes the already advanced `PC`, then `PC <- nnn`; the stack has no bound (R72, R14; log 3). -/
def execCall (nnn : Addr) (s : State) : Host.Outcome State Fault Refusal := .next (setPc (push s s.pc) nnn)

/-- Bnnn: `PC <- (nnn + zext_12(V[0])) mod 0x1000` (R73). The reduction is the spec's own choice (D2), log 2. -/
def execJpV0 (nnn : Addr) (s : State) : Host.Outcome State Fault Refusal := .next (setPc s (nnn + zext12 (reg s 0)))

end Sys2Proof.Machine
end

