-- ==== Sys2Proof/Machine/Display.lean ====
section
/-! DEFINITION. The display instructions (44_display.md). -/

namespace Sys2Proof.Machine

/-- One lit sprite pixel: a set pixel records a collision in VF, and the pixel is XORed with 1 (R121). -/
def drawPixel (s : State) (px : Col) (py : Row) : State :=
  flipPixel (if pixel s px py then setReg s vf 1 else s) px py

/-- The first `c` pixels of sprite row `r`, byte `b`, left to right; a sprite bit of 0 does nothing (R121). -/
def drawCols (x0 y0 b : Byte) (r : Nat) (s : State) : Nat → State
  | 0 => s
  | c + 1 =>
    let t := drawCols x0 y0 b r s c
    if spriteBit b c then drawPixel t (spriteCol x0 c) (spriteRow y0 r) else t

/-- The first `r` rows of a sprite at column `x0` and row `y0`, row r read from `I + r` (R121). -/
def drawRows (x0 y0 : Byte) (s : State) : Nat → State
  | 0 => s
  | r + 1 =>
    let t := drawRows x0 y0 s r
    drawCols x0 y0 (memRead t (indexBase t + r)) r t 8

/-- A sprite of `n` rows at column `x0` and row `y0`: VF is reset first, `DIRTY` is set last, also when n = 0 (R121). -/
def drawSprite (x0 y0 : Byte) (n : Nat) (s : State) : State := setDirty (drawRows x0 y0 (setReg s vf 0) n) true

/-- 00E0 with the parameter `CLS_MARKS_DIRTY` as an argument: every pixel 0; `DIRTY` becomes 1 if the parameter says so
and stays as it was otherwise (R120). -/
def clearDisplay (marksDirty : Bool) (s : State) : State := setDirty (clearPixels s) (s.dirty || marksDirty)

/-- 00E0: clears the display; whether it marks `DIRTY` is the open parameter (R120; D18, log 18). -/
def execCls (s : State) : Host.Outcome State Fault Refusal := .next (clearDisplay Config.clsMarksDirty s)

/-- Dxyn: draws the `n` bytes at `I` at column `V[x]` and row `V[y]`, both read before VF is reset (R121; D11, log 11). -/
def execDrw (x y : RegIx) (n : Fin 16) (s : State) : Host.Outcome State Fault Refusal :=
  .next (drawSprite (reg s x) (reg s y) n.val s)

end Sys2Proof.Machine
end

