-- ==== Sys2Proof/Machine/IndexMemory.lean ====
section
/-! DEFINITION. The index register and the memory transfers (43_index_memory.md). No memory instruction changes `I` (D15,
log 15); addresses wrap (R32; D1, log 1). -/

namespace Sys2Proof.Machine

/-- Annn: `I <- nnn` (R110). -/
def execLdI (nnn : Addr) (s : State) : Host.Outcome State Fault Refusal := .next (setI s nnn)

/-- Fx1E: `I <- (I + zext_12(V[x])) mod 0x1000`; VF is not written (R111; D7, log 7). -/
def execAddI (x : RegIx) (s : State) : Host.Outcome State Fault Refusal := .next (setI s (s.i + zext12 (reg s x)))

/-- Fx29: `I <- V[x] * 5`, for every `V[x]` (R112). -/
def execLdF (x : RegIx) (s : State) : Host.Outcome State Fault Refusal := .next (setI s (glyphAddress (reg s x)))

/-- Fx33: the decimal digits of `V[x]` at `I`, `I + 1`, `I + 2` (R113). -/
def execLdB (x : RegIx) (s : State) : Host.Outcome State Fault Refusal :=
  .next (storeBytes s (indexBase s) (bcdDigits (reg s x)))

/-- Fx55: `V[0]` to `V[x]` stored at `I` upward (R114). -/
def execStRegs (x : RegIx) (s : State) : Host.Outcome State Fault Refusal :=
  .next (storeBytes s (indexBase s) (regsUpTo s x))

/-- Fx65: `V[0]` to `V[x]` loaded from `I` upward (R115). -/
def execLdRegs (x : RegIx) (s : State) : Host.Outcome State Fault Refusal :=
  .next (loadRegs s (indexBase s) (x.val + 1))

end Sys2Proof.Machine
end

