-- ==== Sys2Proof/Machine/Noop.lean ====
section
/-! DEFINITION. The no-op words of classes 0, 8, E and F (R57): no effect of their own; the step cycle around them ticks
the timer and advances `PC` (R55). -/

namespace Sys2Proof.Machine

/-- 0nnn other than 00E0 and 00EE: a no-op, in particular no jump (R57, R59). -/
def execSys (_nnn : Addr) (s : State) : Host.Outcome State Fault Refusal := .next s

/-- 8xyn with n in 8, 9, A, B, C, D, F: a no-op (R57). -/
def execNop8 (_x _y : RegIx) (_n : Nibble) (s : State) : Host.Outcome State Fault Refusal := .next s

/-- Exkk with kk neither 9E nor A1: a no-op (R57). -/
def execNope (_x : RegIx) (_kk : Byte) (s : State) : Host.Outcome State Fault Refusal := .next s

/-- Fxkk with a kk that no rule names: a no-op (R57). -/
def execNopf (_x : RegIx) (_kk : Byte) (s : State) : Host.Outcome State Fault Refusal := .next s

end Sys2Proof.Machine
end

