-- ==== Sys2Proof/Machine/Skip.lean ====
section
/-! DEFINITION. The conditional skips (41_skip.md): the only state written is `PC`. -/

namespace Sys2Proof.Machine

/-- 3xkk: skip if `V[x] == kk` (R80). -/
def execSeImm (x : RegIx) (kk : Byte) (s : State) : Host.Outcome State Fault Refusal :=
  .next (skipIf (reg s x == kk) s)

/-- 4xkk: skip if `V[x] != kk` (R81). -/
def execSneImm (x : RegIx) (kk : Byte) (s : State) : Host.Outcome State Fault Refusal :=
  .next (skipIf (reg s x != kk) s)

/-- 5xyn: skip if `V[x] == V[y]`, whatever n is (R82, R58; D6, log 6). -/
def execSeReg (x y : RegIx) (_n : Nibble) (s : State) : Host.Outcome State Fault Refusal :=
  .next (skipIf (reg s x == reg s y) s)

/-- 9xyn: skip if `V[x] != V[y]`, whatever n is (R83, R58; D6, log 6). -/
def execSneReg (x y : RegIx) (_n : Nibble) (s : State) : Host.Outcome State Fault Refusal :=
  .next (skipIf (reg s x != reg s y) s)

/-- Ex9E: skip if the key `V[x] & 0x0F` is pressed (R84; D12, log 12). -/
def execSkp (x : RegIx) (s : State) : Host.Outcome State Fault Refusal :=
  .next (skipIf (keyState s (keyIndex (reg s x))) s)

/-- ExA1: skip if the key `V[x] & 0x0F` is not pressed (R85; D12, log 12). -/
def execSknp (x : RegIx) (s : State) : Host.Outcome State Fault Refusal :=
  .next (skipIf (!keyState s (keyIndex (reg s x))) s)

end Sys2Proof.Machine
end

