-- ==== Sys2Proof/Machine/TimerKey.lean ====
section
/-! DEFINITION. The timer and keypad instructions (45_timer_key.md). On entry `DT` has already been ticked (R55). -/

namespace Sys2Proof.Machine

/-- Fx07: `V[x] <- DT` (R130). -/
def execLdVxDt (x : RegIx) (s : State) : Host.Outcome State Fault Refusal := .next (setReg s x s.dt)

/-- Fx0A: `WAIT <- some x`; a key already held does not end the wait (R131; D13, log 13). -/
def execLdVxK (x : RegIx) (s : State) : Host.Outcome State Fault Refusal := .next (setWait s (some x))

/-- Fx15: `DT <- V[x]` (R132). -/
def execLdDtVx (x : RegIx) (s : State) : Host.Outcome State Fault Refusal := .next (setDt s (reg s x))

/-- Fx18: no state change, the core has no sound timer (R133, R158; D4, log 4). -/
def execLdStVx (_x : RegIx) (s : State) : Host.Outcome State Fault Refusal := .next s

end Sys2Proof.Machine
end

