-- ==== Sys2Proof/Machine/Cycle.lean ====
section
/-! DEFINITION. The step cycle (R55, R151), one atomic transition. -/

namespace Sys2Proof.Machine

/-- Line 7 of R55: `LAST <- w` on the state the handler leaves. -/
def finishStep (w : Word) : Host.Outcome State Fault Refusal → Host.Outcome State Fault Refusal
  | .next t => .next (setLast t w)
  | .fault r => .fault r
  | .refused r => .refused r

/-- Lines 3 to 7 of R55, on the ticked state: fetch, advance `PC`, decode, execute, return the word. -/
def fetchExecute (s : State) : Host.Outcome State Fault Refusal :=
  finishStep (fetchWord s) (exec (decodeWord (fetchWord s)) (advancePc s))

/-- One step (R55): the timer ticks, also in a key-wait; a pending key-wait ends the step with the sentinel 0x0000 as
`LAST` (D22, log 22) and no fetch; otherwise the instruction at `PC` runs. -/
def cycle (s : State) : Host.Outcome State Fault Refusal :=
  match s.wait with
  | some _ => .next (setLast (tickTimer s) 0x0000)
  | none => fetchExecute (tickTimer s)

end Sys2Proof.Machine
end

