-- ==== Sys2Proof/Machine/Step.lean ====
section
/-! DEFINITION. The machine's one step and where it fetches. -/

namespace Sys2Proof.Machine

/-- One call of `step` (R55). -/
def step (s : State) : Host.Outcome State Fault Refusal := cycle s

/-- `s` with the instruction whose bits are `w` (numbered as spec/opcode_table.json numbers them; bits at or above `nbits`
are 0) placed where `step` fetches next: at `PC`, with no key-wait pending. Log 21, log 29. -/
def State.withFetchWord (s : State) (nbits w : Nat) : State := placeWord s (BitVec.ofNat 16 (w % 2 ^ nbits))

end Sys2Proof.Machine
end

