-- ==== Sys2Proof/Machine/HostPort.lean ====
section
/-! DEFINITION. The host's side of the interface (10_state.md section 5; R144): construction and the transactions, each
one atomic transition between steps (R40, R152). They are the complete list of what the host can do; the form of the
interface is the spec's own choice (D20), log 20. -/

namespace Sys2Proof.Machine

/-- What construction gives: the core, and the report whether the program image was rejected (R171). -/
structure Constructed where
  state    : State
  rejected : Bool
  deriving DecidableEq, Repr

/-- `construct(FONT, ROM)` (R170, R171, R173): every piece of state at its reset value, the font at 0x000, and the program
image at 0x200 unless its length is 3584 or more (R142; log 24). Memory is zero elsewhere: `State.reset` reads as zero
above the font, and the font's 80 bytes are all written here. -/
def construct (font : Vector Byte 80) (rom : List Byte) : Constructed :=
  let s := storeBytes State.reset 0x000 font.toList
  if rom.length < 3584 then ⟨storeBytes s 0x200 rom, false⟩ else ⟨s, true⟩

/-- `key_press(k)` (R145): the key is set, and a pending key-wait is resolved at once (D14, log 14). -/
def keyPress (k : KeyIx) (s : State) : State :=
  match s.wait with
  | some r => setWait (setReg (setKey s k true) r (zext8 k)) none
  | none => setKey s k true

/-- `key_release(k)` (R146). -/
def keyRelease (k : KeyIx) (s : State) : State := setKey s k false

/-- `display_read()` (R147): the whole grid and `DIRTY`; no state changes. -/
def displayRead (s : State) : Vector (Vector Bool 32) 64 × Bool := (s.px, s.dirty)

/-- `display_ack()` (R148). -/
def displayAck (s : State) : State := setDirty s false

/-- `dbg_pc()` (R149). -/
def dbgPc (s : State) : Addr := s.pc

/-- `dbg_i()` (R149). -/
def dbgI (s : State) : Addr := s.i

/-- `dbg_v(r)` (R149). -/
def dbgV (s : State) (r : RegIx) : Byte := reg s r

/-- `dbg_mem(a)`, a any natural number: it clamps, `Mem[min(a, 0xFFF)]`, and does not wrap (R150; D23, log 20). -/
def dbgMem (s : State) (a : Nat) : Byte := memRead s (min a 0xFFF)

/-- One call of an operation of a constructed core (R144). -/
inductive Transaction where
  | step
  | keyPress (k : KeyIx)
  | keyRelease (k : KeyIx)
  | displayRead
  | displayAck
  | dbgPc
  | dbgI
  | dbgV (r : RegIx)
  | dbgMem (a : Nat)
  deriving DecidableEq, Repr

/-- What a transaction gives back to the host (10_state.md section 5). -/
inductive Reply where
  | none
  | last (w : Word)
  | display (px : Vector (Vector Bool 32) 64) (dirty : Bool)
  | addr (a : Addr)
  | byte (b : Byte)
  deriving DecidableEq, Repr

/-- The state after one transaction. -/
def transact (t : Transaction) (s : State) : Host.Outcome State Fault Refusal :=
  match t with
  | .step => Sys2Proof.Machine.step s
  | .keyPress k => .next (Sys2Proof.Machine.keyPress k s)
  | .keyRelease k => .next (Sys2Proof.Machine.keyRelease k s)
  | .displayAck => .next (Sys2Proof.Machine.displayAck s)
  | .displayRead | .dbgPc | .dbgI | .dbgV _ | .dbgMem _ => .next s

/-- What one transaction made in state `s` gives back, `t` being the state after it. -/
def reply (tr : Transaction) (s t : State) : Reply :=
  match tr with
  | .step => .last t.last
  | .displayRead => .display (displayRead s).1 (displayRead s).2
  | .dbgPc => .addr (dbgPc s)
  | .dbgI => .addr (dbgI s)
  | .dbgV r => .byte (dbgV s r)
  | .dbgMem a => .byte (dbgMem s a)
  | .keyPress _ | .keyRelease _ | .displayAck => .none

/-- Transactions made one after another, in the order the host issues them (R40, R152). -/
def transactAll : List Transaction → State → Host.Outcome State Fault Refusal
  | [], s => .next s
  | tr :: trs, s =>
    match transact tr s with
    | .next t => transactAll trs t
    | .fault r => .fault r
    | .refused r => .refused r

end Sys2Proof.Machine
end

