-- ==== Sys2Proof/Safety.lean ====
section
/-! DEFINITION. The terms claims use: what a transition leaves unchanged, the states the host can bring a core to, a
step that completes, and which pixels a sprite covers. -/

namespace Sys2Proof.Machine

/-- The pieces of state other than the general registers (10_state.md). -/
inductive Part where
  | index | pc | stack | memory | display | dirty | timer | keys | keyWait | lastWord | draws
  deriving DecidableEq, Repr

/-- A piece of state reads in `t` as it does in `s`: memory by every address, the display by every pixel, the keypad by
every key. -/
def Part.Same (s t : State) : Part → Prop
  | .index    => t.i = s.i
  | .pc       => t.pc = s.pc
  | .stack    => t.stack = s.stack
  | .memory   => ∀ a : Nat, memRead t a = memRead s a
  | .display  => ∀ (x : Col) (y : Row), pixel t x y = pixel s x y
  | .dirty    => t.dirty = s.dirty
  | .timer    => t.dt = s.dt
  | .keys     => ∀ k : KeyIx, keyState t k = keyState s k
  | .keyWait  => t.wait = s.wait
  | .lastWord => t.last = s.last
  | .draws    => t.draws = s.draws

/-- The frame: from `s` to `t` every general register outside `regs`, and every other piece of state outside `parts`, is
unchanged. -/
structure OnlyChanges (regs : Set RegIx) (parts : Set Part) (s t : State) : Prop where
  registers : ∀ r : RegIx, r ∉ regs → reg t r = reg s r
  rest      : ∀ p : Part, p ∉ parts → p.Same s t

/-- A safe step answers a next state: no fault, no refusal (R140). -/
def SafeStep (s : State) : Prop := ∃ t, step s = .next t

/-- The states of a constructed core under every order of steps and host transactions (R40, R144, R152, R170). -/
inductive Reachable : State → Prop where
  | constructed (font : Vector Byte 80) (rom : List Byte) : Reachable (construct font rom).state
  | transacted (tr : Transaction) {s t : State} (hs : Reachable s) (ht : transact tr s = .next t) : Reachable t

/-- The invariant of the machine that the types do not already say (R24): memory is in its canonical form. -/
def State.inv (s : State) : Bool := Memory.wf s.mem

/-- A sprite of `n` rows read from `I` and placed at column `x0`, row `y0` has a 1 bit on pixel (px, py): some row r and
some column c of it, both wrapped, fall there (R121). -/
def SpriteCovers (s : State) (x0 y0 : Byte) (n : Nat) (px : Col) (py : Row) : Prop :=
  ∃ r c : Nat, r < n ∧ c < 8 ∧ px.val = (x0.toNat + c) % 64 ∧ py.val = (y0.toNat + r) % 32 ∧
    (memRead s (indexBase s + r)).getLsbD (7 - c) = true

/-- `step` will fetch the word `w` and no key-wait is pending. -/
def Fetches (s : State) (w : Word) : Prop := s.wait = none ∧ fetchWord s = w

/-- The words that R57 lists as no-ops, class by class. -/
def NoOpWord (w : Word) : Prop :=
  (w.toNat < 0x1000 ∧ w.toNat ≠ 0x00E0 ∧ w.toNat ≠ 0x00EE) ∨
  (w.toNat / 0x1000 = 0x8 ∧ w.toNat % 0x10 ∈ [0x8, 0x9, 0xA, 0xB, 0xC, 0xD, 0xF]) ∨
  (w.toNat / 0x1000 = 0xE ∧ w.toNat % 0x100 ∉ [0x9E, 0xA1]) ∨
  (w.toNat / 0x1000 = 0xF ∧ w.toNat % 0x100 ∉ [0x07, 0x0A, 0x15, 0x18, 0x1E, 0x29, 0x33, 0x55, 0x65])

end Sys2Proof.Machine
end

