-- ==== Sys2Proof/Certificates/Slice0/Obligations.lean ====
section
/-! DEFINITION. The statements for the provers. A docstring names the rule a statement formalises and, where a clause
rests on a choice the spec marks as its own (D<n> of 92_eei_decisions.md) or the model makes, the log entry. -/

open Sys2Proof Sys2Proof.Machine

/-! Decoding. -/

/-- R62: the four worked decodings, from their bytes as memory holds them; that class 5 ignores n is D6 (log 6). -/
def Obligations.WorkedDecodings : Prop :=
  decodeBytes [0x8A, 0xB4] = .ok (.addReg 0xA 0xB, []) ∧ decodeBytes [0xF2, 0x65] = .ok (.ldRegs 2, []) ∧
  decodeBytes [0x00, 0xE0] = .ok (.cls, []) ∧ decodeBytes [0x5A, 0xB7] = .ok (.seReg 0xA 0xB 7, [])

/-- R51: the six fields are the masked and shifted bits, for every word, and they overlap as the rule says. -/
def Obligations.FieldsAreTheMaskedBits : Prop :=
  ∀ w : Word,
    (wordClass w).toNat = ((w &&& 0xF000) >>> 12).toNat ∧
    (fieldX w).val = ((w &&& 0x0F00) >>> 8).toNat ∧
    (fieldY w).val = ((w &&& 0x00F0) >>> 4).toNat ∧
    (fieldN w).toNat = (w &&& 0x000F).toNat ∧
    (fieldKk w).toNat = (w &&& 0x00FF).toNat ∧
    (fieldNnn w).toNat = (w &&& 0x0FFF).toNat ∧
    fieldKk w = regBits (fieldY w) ++ fieldN w ∧
    fieldNnn w = regBits (fieldX w) ++ regBits (fieldY w) ++ fieldN w ∧
    fieldNnn w = regBits (fieldX w) ++ fieldKk w

/-- R54: every one of the 65536 words decodes, to a well-formed instruction; no byte after it is used. -/
def Obligations.EveryWordDecodes : Prop :=
  ∀ (hi lo : Byte) (rest : List Byte), ∃ i : Instr, decodeBytes (hi :: lo :: rest) = .ok (i, rest) ∧ i.wf = true

/-- R50, R51, R56: the two bytes of a well-formed instruction decode to it, with every operand at every value. Class 0 is
matched on the whole word (D5, log 5), classes 5 and 9 whatever n is (D6, log 6). -/
def Obligations.DecodeOfEncodeIsTheInstruction : Prop :=
  ∀ (i : Instr) (rest : List Byte), i.wf = true → decodeBytes (encodeBytes i ++ rest) = .ok (i, rest)

/-- R54, R56, R57: decoding loses no bit: encoding the decoded instruction gives the word back (D5, log 5; D6, log 6). -/
def Obligations.EncodeOfDecodeIsTheWord : Prop :=
  ∀ w : Word, encode (decodeWord w) = w

/-- R60: the decoder picks the map's row with the most mask bits among those the word matches, which is also the first
matching row. The map's rows of class 0 rest on D5 (log 5), those of classes 5 and 9 on D6 (log 6). -/
def Obligations.DecodePicksTheMostSpecificRow : Prop :=
  ∀ w : Word, ∃ row ∈ opcodeTable,
    row.matches w = true ∧ row.mnemonic = (decodeWord w).mnemonic ∧
    opcodeTable.find? (fun r => r.matches w) = some row ∧
    ∀ other ∈ opcodeTable, other.matches w = true → other ≠ row → maskBits other.mask < maskBits row.mask

/-! The step cycle. -/

/-- R55: when the bytes at `PC` are those of a well-formed instruction and no key-wait is pending, the step is that
instruction's meaning on the state with the timer ticked and `PC` advanced by 2, and `LAST` becomes its word. The wrap of
`PC + 2` is D2 (log 2); that `LAST` stands in the state is the model's choice (log 22). -/
def Obligations.StepRunsTheDecodedInstruction : Prop :=
  ∀ (s : State) (i : Instr), s.wait = none → i.wf = true →
    memRead s s.pc.toNat = highByte (encode i) → memRead s (s.pc.toNat + 1) = lowByte (encode i) →
    ∃ t : State,
      exec i { s with dt := BitVec.ofNat 8 (s.dt.toNat - 1), pc := BitVec.ofNat 12 (s.pc.toNat + 2) } = .next t ∧
      step s = .next { t with last := encode i }

/-- R162, R178: any number of steps in a key-wait only counts the timer down; the wait stays. The sentinel 0 is D22, and
that `LAST` stands in the state is the model's choice (log 22). -/
def Obligations.KeyWaitOnlyCountsDown : Prop :=
  ∀ (n : Nat) (s : State) (r : RegIx), s.wait = some r →
    transactAll (List.replicate (n + 1) .step) s =
      .next { s with dt := BitVec.ofNat 8 (s.dt.toNat - (n + 1)), last := 0x0000 }

/-- R140, R141: no instruction, no step and no sequence of host transactions ends in a fault or a refusal. -/
def Obligations.NothingEverStops : Prop :=
  (∀ (i : Instr) (s : State), ∃ t, exec i s = .next t) ∧ (∀ s : State, SafeStep s) ∧
  (∀ (trs : List Transaction) (s : State), ∃ t, transactAll trs s = .next t)

/-- R57: a fetched no-op word only ticks the timer, advances `PC` (wrapping: D2, log 2) and is returned (in
`LAST`: log 22). Which words of class 0 are no-ops is D5 (log 5). -/
def Obligations.NoOpWordsOnlyAdvance : Prop :=
  ∀ (s : State) (w : Word), NoOpWord w → Fetches s w →
    step s = .next { s with dt := BitVec.ofNat 8 (s.dt.toNat - 1), pc := BitVec.ofNat 12 (s.pc.toNat + 2), last := w }

/-- R22: no rule reads `LAST`: the latch the model adds (log 22) changes nothing. -/
def Obligations.LastIsNeverRead : Prop :=
  ∀ (s : State) (w : Word), step { s with last := w } = step s

/-- R181: with the timer at 0, a jump to itself that has run once, and a key-wait that has been stepped once, are fixed
points of the step; the premises on `LAST` are there because the model latches it (log 22). -/
def Obligations.SelfJumpAndWaitAreFixedPoints : Prop :=
  (∀ s : State, s.dt = 0 → Fetches s (encode (.jp s.pc)) → s.last = encode (.jp s.pc) → step s = .next s) ∧
  (∀ (s : State) (r : RegIx), s.dt = 0 → s.wait = some r → s.last = 0x0000 → step s = .next s)

/-! Memory. -/

/-- R24: every step keeps memory in its canonical form. -/
def Obligations.StepKeepsMemoryCanonical : Prop :=
  ∀ s t : State, s.inv = true → step s = .next t → t.inv = true

/-- The reset state has the invariant. -/
def Obligations.ResetMemoryIsCanonical : Prop := State.reset.inv = true

/-- R24, R40: memory is in its canonical form in every state of a constructed core, whatever the font, the program and
the order of steps and host transactions. -/
def Obligations.ReachableMemoryIsCanonical : Prop :=
  ∀ s : State, Reachable s → s.inv = true

/-- Memories in canonical form that read alike at all 4096 addresses are equal data. -/
def Obligations.CanonicalMemoriesAreExtensional : Prop :=
  ∀ m k : Memory, Memory.wf m = true → Memory.wf k = true →
    (∀ a : Nat, a < 0x1000 → Memory.get m a = Memory.get k a) → m = k

/-- R32, R150: a byte written at any natural address is read back at every address equal to it mod 0x1000, and every
other address reads as before; the host's debug read clamps instead, to 0xFFF. That an address wraps is the spec's choice
D1 (log 1), that the debug read takes any natural number is D23 (log 20). -/
def Obligations.AccessesWrapAndDebugReadsClamp : Prop :=
  ∀ (s : State) (a c : Nat) (b : Byte), s.inv = true →
    (c % 0x1000 = a % 0x1000 → memRead (memWrite s a b) c = b) ∧
    (c % 0x1000 ≠ a % 0x1000 → memRead (memWrite s a b) c = memRead s c) ∧
    (a ≤ 0xFFF → reply (.dbgMem a) s s = .byte (memRead s a)) ∧
    (0xFFF < a → reply (.dbgMem a) s s = .byte (memRead s 0xFFF)) ∧
    transact (.dbgMem a) s = .next s

/-- R36, R38, R144: memory changes in no transaction but a step that runs Fx33 or Fx55. -/
def Obligations.MemoryChangesOnlyByStores : Prop :=
  ∀ (tr : Transaction) (s t : State), transact tr s = .next t → (∃ a : Nat, memRead t a ≠ memRead s a) →
    tr = .step ∧ s.wait = none ∧
      ∃ x : RegIx, decodeWord (fetchWord s) = .ldB x ∨ decodeWord (fetchWord s) = .stRegs x

/-! Which transitions write the other pieces of state. -/

/-- R14: the stack changes in no transaction but a step that runs 2nnn or 00EE. -/
def Obligations.StackChangesOnlyByCallAndReturn : Prop :=
  ∀ (tr : Transaction) (s t : State), transact tr s = .next t → t.stack ≠ s.stack →
    tr = .step ∧ s.wait = none ∧
      (decodeWord (fetchWord s) = .ret ∨ ∃ nnn : Addr, decodeWord (fetchWord s) = .call nnn)

/-- R16, R17, R148: a pixel changes in no transaction but a step that runs 00E0 or Dxyn; `DIRTY` goes to 1 only in such a
step (whether 00E0 sets it is left open: D18, log 18) and to 0 only in `display_ack`. -/
def Obligations.DisplayChangesOnlyByClearAndDraw : Prop :=
  ∀ (tr : Transaction) (s t : State), transact tr s = .next t →
    ((∃ x y, pixel t x y ≠ pixel s x y) ∨ (t.dirty = true ∧ s.dirty = false) →
      tr = .step ∧ s.wait = none ∧
        (decodeWord (fetchWord s) = .cls ∨ ∃ x y n, decodeWord (fetchWord s) = .drw x y n)) ∧
    (t.dirty = false → s.dirty = true → tr = .displayAck)

/-- R19: a key's state changes only in a press or release of that key. -/
def Obligations.KeysChangeOnlyByTheHost : Prop :=
  ∀ (tr : Transaction) (s t : State) (k : KeyIx), transact tr s = .next t → keyState t k ≠ keyState s k →
    (tr = .keyPress k ∧ keyState t k = true) ∨ (tr = .keyRelease k ∧ keyState t k = false)

/-- R18, R156, R157: every step, also in a key-wait, counts the timer down by one and stops at zero, unless it runs Fx15;
no other transaction moves it. One tick per step is D27 (log 26). -/
def Obligations.TimerTicksOncePerStep : Prop :=
  ∀ (tr : Transaction) (s t : State), transact tr s = .next t →
    (tr ≠ .step → t.dt = s.dt) ∧
    (tr = .step → (s.wait ≠ none ∨ ∀ x : RegIx, decodeWord (fetchWord s) ≠ .ldDtVx x) →
      t.dt.toNat = s.dt.toNat - 1)

/-- R12, R144: `I` changes only in a step that runs Annn, Fx1E or Fx29; in particular no memory instruction changes it
(D15, log 15). -/
def Obligations.IndexChangesOnlyByItsThreeWriters : Prop :=
  ∀ (tr : Transaction) (s t : State), transact tr s = .next t → t.i ≠ s.i →
    tr = .step ∧ s.wait = none ∧
      ((∃ nnn : Addr, decodeWord (fetchWord s) = .ldI nnn) ∨
        ∃ x : RegIx, decodeWord (fetchWord s) = .addI x ∨ decodeWord (fetchWord s) = .ldF x)

/-- R11, R179: an instruction changes VF only if it is one of the six flag writers or VF is its own destination (D7,
log 7). -/
def Obligations.VfChangesOnlyByFlagWritersOrAsDestination : Prop :=
  ∀ (i : Instr) (s t : State), exec i s = .next t → reg t 15 ≠ reg s 15 →
    (∃ x y, i = .addReg x y ∨ i = .sub x y ∨ i = .shr x y ∨ i = .subn x y ∨ i = .shl x y) ∨
    (∃ x y n, i = .drw x y n) ∨
    (∃ kk, i = .ldImm 15 kk ∨ i = .addImm 15 kk ∨ i = .rnd 15 kk) ∨
    (∃ y, i = .ldReg 15 y ∨ i = .orReg 15 y ∨ i = .andReg 15 y ∨ i = .xorReg 15 y) ∨
    i = .ldVxDt 15 ∨ i = .ldRegs 15

/-- R131, R145, R162: only Fx0A enters a key-wait, with the register it names; only a key press leaves it, and gives that
register the key's code (D14, log 14). -/
def Obligations.KeyWaitEnteredByFx0ALeftByAPress : Prop :=
  ∀ (tr : Transaction) (s t : State) (r : RegIx), transact tr s = .next t →
    (s.wait = none → t.wait = some r → tr = .step ∧ decodeWord (fetchWord s) = .ldVxK r) ∧
    (s.wait = some r → t.wait ≠ some r → ∃ k : KeyIx, tr = .keyPress k ∧ t.wait = none ∧ (reg t r).toNat = k.val)

/-- R17, R19: no instruction but Ex9E and ExA1 reads the keypad, and none at all reads `DIRTY`: what an instruction does
to everything else is the same whatever these are. -/
def Obligations.KeysAndDirtyAreHardlyRead : Prop :=
  ∀ (i : Instr) (s t : State), exec i s = .next t →
    (∀ keys : Vector Bool 16, (∀ x : RegIx, i ≠ .skp x ∧ i ≠ .sknp x) →
      exec i { s with key := keys } = .next { t with key := keys }) ∧
    (∀ d : Bool, ∃ e : Bool, exec i { s with dirty := d } = .next { t with dirty := e })

/-! Control transfer. -/

/-- R71: 1nnn, the words of class 1, sets `PC` to the absolute address, any address, and nothing else. -/
def Obligations.JumpSetsPc : Prop :=
  ∀ (nnn : Addr) (s : State), (encode (.jp nnn)).toNat = 0x1000 + nnn.toNat ∧
    ∃ t, exec (.jp nnn) s = .next t ∧ t.pc = nnn ∧ OnlyChanges ∅ {.pc} s t

/-- R73: Bnnn sets `PC` to nnn + V0 reduced mod 0x1000 (D2, log 2); VF and every register stay. -/
def Obligations.JumpWithOffsetAddsV0 : Prop :=
  ∀ (nnn : Addr) (s : State), ∃ t, exec (.jpV0 nnn) s = .next t ∧
    t.pc.toNat = (nnn.toNat + (reg s 0).toNat) % 0x1000 ∧ OnlyChanges ∅ {.pc} s t

/-- R72: 2nnn pushes the already advanced `PC` as the new top and jumps, at any depth (D3, log 3). -/
def Obligations.CallPushesPcAndJumps : Prop :=
  ∀ (nnn : Addr) (s : State), ∃ t, exec (.call nnn) s = .next t ∧
    t.stack = s.stack ++ [s.pc] ∧ t.pc = nnn ∧ OnlyChanges ∅ {.pc, .stack} s t

/-- R70: the word 00EE pops the top into `PC`; with an empty stack `PC` becomes 0x200 and the stack stays empty. After a
call it gives back the `PC` and the stack the call had on entry. In no other transaction does an entry leave the stack. -/
def Obligations.ReturnPopsOrRestarts : Prop :=
  encode .ret = 0x00EE ∧
  (∀ s : State, ∃ t, exec .ret s = .next t ∧ OnlyChanges ∅ {.pc, .stack} s t ∧
    (∀ (older : List Addr) (top : Addr), s.stack = older ++ [top] → t.pc = top ∧ t.stack = older) ∧
    (s.stack = [] → t.pc = 0x200 ∧ t.stack = [])) ∧
  (∀ (nnn : Addr) (s : State), ∃ t u, exec (.call nnn) s = .next t ∧ exec .ret t = .next u ∧
    u.pc = s.pc ∧ u.stack = s.stack) ∧
  (∀ (tr : Transaction) (s t : State), transact tr s = .next t → t.stack.length < s.stack.length →
    tr = .step ∧ s.wait = none ∧ decodeWord (fetchWord s) = .ret)

/-- R70, R72, S5: a call whose target holds a return comes back to the instruction after the call in two steps, with the
stack as it was; only `PC`, the timer and `LAST` differ. The wrap of `PC + 2` is D2 (log 2). -/
def Obligations.CallThenReturnComesBack : Prop :=
  ∀ (s : State) (nnn : Addr), Fetches s (encode (.call nnn)) →
    memRead s nnn.toNat = 0x00 → memRead s (nnn.toNat + 1) = 0xEE →
    ∃ t u, step s = .next t ∧ step t = .next u ∧ u.pc.toNat = (s.pc.toNat + 2) % 0x1000 ∧
      OnlyChanges ∅ {.pc, .timer, .lastWord} s u

/-- R14, R72: the stack has no bound: n steps of an instruction that calls itself push n return addresses on top of what
was there, and lose none (D3, log 3). -/
def Obligations.CallsNestWithoutBound : Prop :=
  ∀ (n : Nat) (s : State), Fetches s (encode (.call s.pc)) →
    ∃ t, transactAll (List.replicate n .step) s = .next t ∧ t.pc = s.pc ∧
      t.stack = s.stack ++ List.replicate n (BitVec.ofNat 12 (s.pc.toNat + 2))

/-! Skips. -/

/-- R80 to R83, R58: 3xkk, 4xkk, 5xyn and 9xyn advance `PC` by a further 2, mod 0x1000 (D2, log 2), when V[x] equals, or
differs from, kk or V[y]; 5xyn and 9xyn do so whatever n is (D6, log 6). -/
def Obligations.ComparingSkips : Prop :=
  ∀ (x y : RegIx) (kk : Byte) (n : Nibble) (s : State),
    (∃ t, exec (.seImm x kk) s = .next t ∧ OnlyChanges ∅ {.pc} s t ∧
      (reg s x = kk → t.pc.toNat = (s.pc.toNat + 2) % 0x1000) ∧ (reg s x ≠ kk → t.pc = s.pc)) ∧
    (∃ t, exec (.sneImm x kk) s = .next t ∧ OnlyChanges ∅ {.pc} s t ∧
      (reg s x ≠ kk → t.pc.toNat = (s.pc.toNat + 2) % 0x1000) ∧ (reg s x = kk → t.pc = s.pc)) ∧
    (∃ t, exec (.seReg x y n) s = .next t ∧ OnlyChanges ∅ {.pc} s t ∧
      (reg s x = reg s y → t.pc.toNat = (s.pc.toNat + 2) % 0x1000) ∧ (reg s x ≠ reg s y → t.pc = s.pc)) ∧
    (∃ t, exec (.sneReg x y n) s = .next t ∧ OnlyChanges ∅ {.pc} s t ∧
      (reg s x ≠ reg s y → t.pc.toNat = (s.pc.toNat + 2) % 0x1000) ∧ (reg s x = reg s y → t.pc = s.pc))

/-- R84, R85: Ex9E and ExA1 skip when the key numbered by the low four bits of V[x] (D12, log 12) is, or is not, pressed
(D2, log 2). -/
def Obligations.KeySkips : Prop :=
  ∀ (x : RegIx) (s : State) (k : KeyIx), k.val = (reg s x).toNat % 16 →
    (∃ t, exec (.skp x) s = .next t ∧ OnlyChanges ∅ {.pc} s t ∧
      (keyState s k = true → t.pc.toNat = (s.pc.toNat + 2) % 0x1000) ∧ (keyState s k = false → t.pc = s.pc)) ∧
    (∃ t, exec (.sknp x) s = .next t ∧ OnlyChanges ∅ {.pc} s t ∧
      (keyState s k = false → t.pc.toNat = (s.pc.toNat + 2) % 0x1000) ∧ (keyState s k = true → t.pc = s.pc))

/-! Load and arithmetic. -/

/-- R57, R133: the four no-op instructions and Fx18 change nothing. -/
def Obligations.NoOpsAndSoundTimerChangeNothing : Prop :=
  ∀ s : State, (∀ nnn, exec (.sys nnn) s = .next s) ∧ (∀ x y n, exec (.nop8 x y n) s = .next s) ∧
    (∀ x kk, exec (.nope x kk) s = .next s) ∧ (∀ x kk, exec (.nopf x kk) s = .next s) ∧
    (∀ x, exec (.ldStVx x) s = .next s)

/-- R90, R92: 6xkk loads the immediate and 8xy0 copies V[y] into V[x], also when x is F; the words that encode them. -/
def Obligations.LoadsAndCopies : Prop :=
  ∀ (x y : RegIx) (kk : Byte) (s : State),
    (encode (.ldImm x kk)).toNat = 0x6000 + 0x100 * x.val + kk.toNat ∧
    (encode (.ldReg x y)).toNat = 0x8000 + 0x100 * x.val + 0x10 * y.val ∧
    (∃ t, exec (.ldImm x kk) s = .next t ∧ reg t x = kk ∧ OnlyChanges {x} ∅ s t) ∧
    (∃ t, exec (.ldReg x y) s = .next t ∧ reg t x = reg s y ∧ OnlyChanges {x} ∅ s t)

/-- R91: 7xkk adds the immediate modulo 256 and sets no flag; with x = F it adds to VF. -/
def Obligations.AddImmediateWraps : Prop :=
  ∀ (x : RegIx) (kk : Byte) (s : State), (encode (.addImm x kk)).toNat = 0x7000 + 0x100 * x.val + kk.toNat ∧
    ∃ t, exec (.addImm x kk) s = .next t ∧ (reg t x).toNat = ((reg s x).toNat + kk.toNat) % 256 ∧ OnlyChanges {x} ∅ s t

/-- R93, R94, R95: 8xy1, 8xy2, 8xy3 combine each bit of V[x] with that of V[y]; VF is not a flag of theirs (D7, log 7). -/
def Obligations.LogicOperationsAreBitwise : Prop :=
  ∀ (x y : RegIx) (s : State),
    (∃ t, exec (.orReg x y) s = .next t ∧ OnlyChanges {x} ∅ s t ∧
      ∀ j : Nat, (reg t x).getLsbD j = ((reg s x).getLsbD j || (reg s y).getLsbD j)) ∧
    (∃ t, exec (.andReg x y) s = .next t ∧ OnlyChanges {x} ∅ s t ∧
      ∀ j : Nat, (reg t x).getLsbD j = ((reg s x).getLsbD j && (reg s y).getLsbD j)) ∧
    (∃ t, exec (.xorReg x y) s = .next t ∧ OnlyChanges {x} ∅ s t ∧
      ∀ j : Nat, (reg t x).getLsbD j = Bool.xor ((reg s x).getLsbD j) ((reg s y).getLsbD j))

/-- R96: 8xy4: the sum modulo 256 in V[x], lost when x is F; VF 1 exactly when the sum is over 255, which is also when
the old V[x] exceeds the wrapped sum. -/
def Obligations.AddRegistersWithCarry : Prop :=
  ∀ (x y : RegIx) (s : State), (encode (.addReg x y)).toNat = 0x8004 + 0x100 * x.val + 0x10 * y.val ∧
    ∃ t, exec (.addReg x y) s = .next t ∧ OnlyChanges {x, 15} ∅ s t ∧
    (x ≠ 15 → (reg t x).toNat = ((reg s x).toNat + (reg s y).toNat) % 256) ∧
    ((reg s x).toNat + (reg s y).toNat > 255 → reg t 15 = 1) ∧
    (¬ (reg s x).toNat + (reg s y).toNat > 255 → reg t 15 = 0) ∧
    (reg t 15 = 1 ↔ (reg s x).toNat > ((reg s x).toNat + (reg s y).toNat) % 256)

/-- R97, R99: 8xy5 and 8xy7: the difference modulo 256 in V[x], lost when x is F; VF 1 exactly when the minuend is at
least the subtrahend, equality included (D8, log 8); operands are read on entry (D11, log 11). -/
def Obligations.SubtractionsWithNoBorrowFlag : Prop :=
  ∀ (x y : RegIx) (s : State),
    (∃ t, exec (.sub x y) s = .next t ∧ OnlyChanges {x, 15} ∅ s t ∧
      (x ≠ 15 → (reg t x).toNat = ((reg s x).toNat + 256 - (reg s y).toNat) % 256) ∧
      ((reg s x).toNat ≥ (reg s y).toNat → reg t 15 = 1) ∧ ((reg s x).toNat < (reg s y).toNat → reg t 15 = 0)) ∧
    (∃ t, exec (.subn x y) s = .next t ∧ OnlyChanges {x, 15} ∅ s t ∧
      (x ≠ 15 → (reg t x).toNat = ((reg s y).toNat + 256 - (reg s x).toNat) % 256) ∧
      ((reg s y).toNat ≥ (reg s x).toNat → reg t 15 = 1) ∧ ((reg s y).toNat < (reg s x).toNat → reg t 15 = 0))

/-- R98, R100: 8xy6 and 8xyE shift V[x] in place by one (D9, log 9); VF is the bit shifted out, and remains when x is F. -/
def Obligations.ShiftsCaptureTheBitShiftedOut : Prop :=
  ∀ (x y : RegIx) (s : State),
    (∃ t, exec (.shr x y) s = .next t ∧ OnlyChanges {x, 15} ∅ s t ∧
      (x ≠ 15 → (reg t x).toNat = (reg s x).toNat / 2) ∧ (reg t 15).toNat = (reg s x).toNat % 2) ∧
    (∃ t, exec (.shl x y) s = .next t ∧ OnlyChanges {x, 15} ∅ s t ∧
      (x ≠ 15 → (reg t x).toNat = (reg s x).toNat * 2 % 256) ∧ (reg t 15).toNat = (reg s x).toNat / 128)

/-- R101: Cxkk puts a drawn byte masked by kk into V[x]; the byte is the free value of the next draw (D16, log 16), and
the result has 1 bits only where kk has. -/
def Obligations.RandomByteIsMasked : Prop :=
  ∀ (x : RegIx) (kk : Byte) (s : State), ∃ t, exec (.rnd x kk) s = .next t ∧
    reg t x = Config.rnd s.draws &&& kk ∧ t.draws = s.draws + 1 ∧ OnlyChanges {x} {.draws} s t ∧
    ∀ j : Nat, kk.getLsbD j = false → (reg t x).getLsbD j = false

/-! Index register and memory transfer. -/

/-- R110: Annn loads the index register. -/
def Obligations.LoadIndex : Prop :=
  ∀ (nnn : Addr) (s : State), (encode (.ldI nnn)).toNat = 0xA000 + nnn.toNat ∧
    ∃ t, exec (.ldI nnn) s = .next t ∧ t.i = nnn ∧ OnlyChanges ∅ {.index} s t

/-- R111, R112: Fx1E adds V[x] to `I` mod 0x1000 and writes no flag, also when the sum wraps (D7, log 7); Fx29 sets `I` to
V[x] times 5, for every V[x], a product that never reaches 0x1000. -/
def Obligations.IndexArithmetic : Prop :=
  ∀ (x : RegIx) (s : State),
    (∃ t, exec (.addI x) s = .next t ∧
      t.i.toNat = (s.i.toNat + (reg s x).toNat) % 0x1000 ∧ OnlyChanges ∅ {.index} s t) ∧
    (∃ t, exec (.ldF x) s = .next t ∧ t.i.toNat = (reg s x).toNat * 5 ∧ OnlyChanges ∅ {.index} s t)

/-- R113: Fx33 stores the three decimal digits of V[x] at `I`, `I + 1`, `I + 2`, hundreds first, and changes no other
byte; addresses wrap (D1, log 1). -/
def Obligations.BcdDigitsAreStored : Prop :=
  ∀ (x : RegIx) (s : State), s.inv = true → ∃ t, exec (.ldB x) s = .next t ∧ OnlyChanges ∅ {.memory} s t ∧
    (memRead t (indexBase s)).toNat = (reg s x).toNat / 100 ∧
    (memRead t (indexBase s + 1)).toNat = (reg s x).toNat / 10 % 10 ∧
    (memRead t (indexBase s + 2)).toNat = (reg s x).toNat % 10 ∧
    ∀ a : Nat, (∀ j : Nat, j < 3 → a % 0x1000 ≠ (indexBase s + j) % 0x1000) → memRead t a = memRead s a

/-- R114: Fx55 stores V[0] to V[x] at `I` upward and changes no other byte, no register and not `I` (D15, log 15);
addresses wrap (D1, log 1). -/
def Obligations.RegistersAreStored : Prop :=
  ∀ (x : RegIx) (s : State), s.inv = true → ∃ t, exec (.stRegs x) s = .next t ∧ OnlyChanges ∅ {.memory} s t ∧
    (∀ r : RegIx, r ≤ x → memRead t (indexBase s + r.val) = reg s r) ∧
    ∀ a : Nat, (∀ j : Nat, j ≤ x.val → a % 0x1000 ≠ (indexBase s + j) % 0x1000) → memRead t a = memRead s a

/-- R115: Fx65 loads V[0] to V[x] from `I` upward (wrapped: D1, log 1); the registers above V[x], memory and `I` (D15,
log 15) stay. -/
def Obligations.RegistersAreLoaded : Prop :=
  ∀ (x : RegIx) (s : State), ∃ t, exec (.ldRegs x) s = .next t ∧ OnlyChanges {r | r ≤ x} ∅ s t ∧
    ∀ r : RegIx, r ≤ x → reg t r = memRead s (indexBase s + r.val)

/-- R42: the very next fetch sees what Fx55 stored: with `PC` at `I` and x at least 1, it is the word of V[0] and V[1]. At
0xFFF the second byte is stored to and fetched from 0x000, since addresses wrap (R32; D1, log 1). -/
def Obligations.StoredBytesAreFetched : Prop :=
  ∀ (x : RegIx) (s t : State), s.inv = true → 1 ≤ x.val → s.pc = s.i → exec (.stRegs x) s = .next t →
    fetchWord t = reg s 0 ++ reg s 1

/-! Display. -/

/-- R120: 00E0 clears every pixel; whether it sets `DIRTY` is the open parameter, and the statement holds for both of its
values (D18, log 18). -/
def Obligations.ClearBlanksTheDisplay : Prop :=
  ∀ s : State, ∃ t, exec .cls s = .next t ∧ (∀ x y, pixel t x y = false) ∧
    t.dirty = (s.dirty || Config.clsMarksDirty) ∧ OnlyChanges ∅ {.display, .dirty} s t

/-- R121: Dxyn flips exactly the pixels on which the wrapped sprite has a 1 bit (D10, log 10; its rows are read at wrapped
addresses: D1, log 1), sets VF to 1 exactly when
one of them was set, to 0 otherwise, and sets `DIRTY`; the position is V[x], V[y] on entry (D11, log 11). -/
def Obligations.DrawFlipsWhatTheSpriteCovers : Prop :=
  ∀ (x y : RegIx) (n : Fin 16) (s : State), ∃ t, exec (.drw x y n) s = .next t ∧
    (∀ px py, SpriteCovers s (reg s x) (reg s y) n.val px py → pixel t px py = !pixel s px py) ∧
    (∀ px py, ¬ SpriteCovers s (reg s x) (reg s y) n.val px py → pixel t px py = pixel s px py) ∧
    ((∃ px py, SpriteCovers s (reg s x) (reg s y) n.val px py ∧ pixel s px py = true) → reg t 15 = 1) ∧
    ((∀ px py, SpriteCovers s (reg s x) (reg s y) n.val px py → pixel s px py = false) → reg t 15 = 0) ∧
    t.dirty = true ∧ OnlyChanges {15} {.display, .dirty} s t

/-- R121, S3: two draws of the same sprite at the same place give back the display before them, whatever it was. Pixels
wrap (D10, log 10), and with x or y = F the position is the one VF held on entry, read before VF is reset (D11, log 11). -/
def Obligations.DrawingTwiceRestoresTheDisplay : Prop :=
  ∀ (x y x' y' : RegIx) (n : Fin 16) (s t u : State), exec (.drw x y n) s = .next t →
    reg t x' = reg s x → reg t y' = reg s y → exec (.drw x' y' n) t = .next u →
    ∀ px py, pixel u px py = pixel s px py

/-! Timer and keypad. -/

/-- R130, R131, R132: Fx07 reads the timer, Fx15 writes it, Fx0A sets the key-wait for V[x], whatever keys are held (D13,
log 13); none does anything else. -/
def Obligations.TimerAndKeyWaitInstructions : Prop :=
  ∀ (x : RegIx) (s : State),
    (∃ t, exec (.ldVxDt x) s = .next t ∧ reg t x = s.dt ∧ OnlyChanges {x} ∅ s t) ∧
    (∃ t, exec (.ldDtVx x) s = .next t ∧ t.dt = reg s x ∧ OnlyChanges ∅ {.timer} s t) ∧
    (∃ t, exec (.ldVxK x) s = .next t ∧ t.wait = some x ∧ OnlyChanges ∅ {.keyWait} s t)

/-- R130, R132, R175: the timer set by one step is read by the next as one less, or 0 when it was set to 0. -/
def Obligations.TimerSetThenReadIsOneLess : Prop :=
  ∀ (x y : RegIx) (s t u : State), Fetches s (encode (.ldDtVx x)) → step s = .next t →
    Fetches t (encode (.ldVxDt y)) → step t = .next u →
    t.dt = reg s x ∧ (reg u y).toNat = (reg s x).toNat - 1

/-! The host's transactions. -/

/-- R145: a press sets its key; a pending key-wait is resolved at once with the key's code (D14, log 14), and a second
press before the next step only sets its key; with no wait pending only the key changes. -/
def Obligations.KeyPressSetsKeyAndResolvesTheWait : Prop :=
  ∀ (k : KeyIx) (s : State),
    keyState (keyPress k s) k = true ∧
    (∀ j : KeyIx, j ≠ k → keyState (keyPress k s) j = keyState s j) ∧
    (s.wait = none → OnlyChanges ∅ {.keys} s (keyPress k s)) ∧
    (∀ r : RegIx, s.wait = some r →
      (keyPress k s).wait = none ∧ (reg (keyPress k s) r).toNat = k.val ∧
      OnlyChanges {r} {.keys, .keyWait} s (keyPress k s) ∧
      ∀ k' : KeyIx, (reg (keyPress k' (keyPress k s)) r).toNat = k.val)

/-- R145, R131, S7: after the press that resolves a key-wait, the next step runs the instruction `PC` already points at.
The press writes the register at once (D14, log 14), `PC` wraps (D2, log 2), `LAST` is the model's latch (log 22). -/
def Obligations.PressResumesFetching : Prop :=
  ∀ (k : KeyIx) (r : RegIx) (s : State) (i : Instr), s.wait = some r → i.wf = true → fetchWord s = encode i →
    ∃ t, exec i (advancePc (tickTimer (keyPress k s))) = .next t ∧
      step (keyPress k s) = .next { t with last := encode i }

/-- R146: a release clears its key and changes nothing else; in particular it leaves a key-wait pending,
and releasing a key that is not pressed changes nothing. -/
def Obligations.KeyReleaseClearsOnlyItsKey : Prop :=
  ∀ (k : KeyIx) (s : State),
    keyState (keyRelease k s) k = false ∧ (∀ j : KeyIx, j ≠ k → keyState (keyRelease k s) j = keyState s j) ∧
    OnlyChanges ∅ {.keys} s (keyRelease k s) ∧ (keyState s k = false → keyRelease k s = s)

/-- R147, R148, R149: the host's reads give every pixel with `DIRTY`, `PC`, `I` and each register, and change no state; an
acknowledge clears `DIRTY` and changes nothing else; no reply of a read depends on `STACK`, `DT`, `KEY` or `WAIT` (a
step's reply does depend on `WAIT`, and the last clause says nothing about a step: it takes one state before and after). -/
def Obligations.DisplayAndDebugReads : Prop :=
  ∀ s : State,
    (∃ grid : Vector (Vector Bool 32) 64, reply .displayRead s s = .display grid s.dirty ∧
      ∀ (x : Col) (y : Row), grid[x.val][y.val] = pixel s x y) ∧
    reply .dbgPc s s = .addr s.pc ∧ reply .dbgI s s = .addr s.i ∧ (∀ r, reply (.dbgV r) s s = .byte (reg s r)) ∧
    transact .displayRead s = .next s ∧ transact .dbgPc s = .next s ∧ transact .dbgI s = .next s ∧
    (∀ r, transact (.dbgV r) s = .next s) ∧ transact .displayAck s = .next { s with dirty := false } ∧
    ∀ (tr : Transaction) (stk : List Addr) (d : Byte) (ks : Vector Bool 16) (w : Option RegIx),
      let u : State := { s with stack := stk, dt := d, key := ks, wait := w }
      reply tr u u = reply tr s s

/-! Construction. -/

/-- R171: the font at 0x000, an image of at most 3583 bytes at 0x200, zero everywhere else; a longer image is rejected,
reported, and not copied (D21, log 21; D25, log 24), for every font and every image. -/
def Obligations.ConstructionLoadsFontAndProgram : Prop :=
  ∀ (font : Vector Byte 80) (rom : List Byte),
    ((construct font rom).rejected = true ↔ 3584 ≤ rom.length) ∧
    (∀ (a : Nat) (h : a < 80), memRead (construct font rom).state a = font[a]) ∧
    (∀ a : Nat, 80 ≤ a → a < 0x200 → memRead (construct font rom).state a = 0) ∧
    (∀ a : Nat, 0x200 ≤ a → a < 0x1000 → rom.length < 3584 →
      memRead (construct font rom).state a = rom.getD (a - 0x200) 0) ∧
    (∀ a : Nat, 0x200 ≤ a → a < 0x1000 → 3584 ≤ rom.length → memRead (construct font rom).state a = 0)

/-- R173: everything but memory has its reset value after construction, for every font and every image. The values of
`I`, `STACK`, `WAIT` (D30, log 28) and `DIRTY` (D19, log 19) are the spec's choices; those of `LAST` (log 22) and of the
draw counter (log 16) are the model's and are not stated. -/
def Obligations.ConstructionResetsTheRest : Prop :=
  ∀ (font : Vector Byte 80) (rom : List Byte),
    let s := (construct font rom).state
    (∀ r, reg s r = 0) ∧ s.i = 0 ∧ s.pc = 0x200 ∧ s.stack = [] ∧ (∀ x y, pixel s x y = false) ∧
    s.dirty = false ∧ s.dt = 0 ∧ (∀ k, keyState s k = false) ∧ s.wait = none

/-- R6, R170, R172: the reset state is the construction with the default font (PRESUMED, log 17) and an empty program
(DESIGN CHOICE, log 21), accepted. -/
def Obligations.ResetIsTheDefaultConstruction : Prop :=
  ∀ font : Vector Byte 80, font.toList = defaultFont → construct font [] = ⟨State.reset, false⟩
end

