-- ==== Sys2Proof/Laws/State.lean ====
section
/-! SUPPORT. One lemma per field per update and one per accessor per update that does not touch it, true by rfl, so that
no proof unfolds a record update. -/

namespace Sys2Proof.Machine

variable (s : State)

@[simp] theorem setReg_v (r : RegIx) (b : Byte) : (setReg s r b).v = s.v.set r.val b := rfl
@[simp] theorem setReg_i (r : RegIx) (b : Byte) : (setReg s r b).i = s.i := rfl
@[simp] theorem setReg_pc (r : RegIx) (b : Byte) : (setReg s r b).pc = s.pc := rfl
@[simp] theorem setReg_stack (r : RegIx) (b : Byte) : (setReg s r b).stack = s.stack := rfl
@[simp] theorem setReg_mem (r : RegIx) (b : Byte) : (setReg s r b).mem = s.mem := rfl
@[simp] theorem setReg_px (r : RegIx) (b : Byte) : (setReg s r b).px = s.px := rfl
@[simp] theorem setReg_dirty (r : RegIx) (b : Byte) : (setReg s r b).dirty = s.dirty := rfl
@[simp] theorem setReg_dt (r : RegIx) (b : Byte) : (setReg s r b).dt = s.dt := rfl
@[simp] theorem setReg_key (r : RegIx) (b : Byte) : (setReg s r b).key = s.key := rfl
@[simp] theorem setReg_wait (r : RegIx) (b : Byte) : (setReg s r b).wait = s.wait := rfl
@[simp] theorem setReg_last (r : RegIx) (b : Byte) : (setReg s r b).last = s.last := rfl
@[simp] theorem setReg_draws (r : RegIx) (b : Byte) : (setReg s r b).draws = s.draws := rfl
@[simp] theorem memRead_setReg (r : RegIx) (b : Byte) (c : Nat) : memRead (setReg s r b) c = memRead s c := rfl
@[simp] theorem pixel_setReg (r : RegIx) (b : Byte) (u : Col) (w' : Row) : pixel (setReg s r b) u w' = pixel s u w' := rfl
@[simp] theorem keyState_setReg (r : RegIx) (b : Byte) (j : KeyIx) : keyState (setReg s r b) j = keyState s j := rfl

@[simp] theorem setI_v (a : Addr) : (setI s a).v = s.v := rfl
@[simp] theorem setI_i (a : Addr) : (setI s a).i = a := rfl
@[simp] theorem setI_pc (a : Addr) : (setI s a).pc = s.pc := rfl
@[simp] theorem setI_stack (a : Addr) : (setI s a).stack = s.stack := rfl
@[simp] theorem setI_mem (a : Addr) : (setI s a).mem = s.mem := rfl
@[simp] theorem setI_px (a : Addr) : (setI s a).px = s.px := rfl
@[simp] theorem setI_dirty (a : Addr) : (setI s a).dirty = s.dirty := rfl
@[simp] theorem setI_dt (a : Addr) : (setI s a).dt = s.dt := rfl
@[simp] theorem setI_key (a : Addr) : (setI s a).key = s.key := rfl
@[simp] theorem setI_wait (a : Addr) : (setI s a).wait = s.wait := rfl
@[simp] theorem setI_last (a : Addr) : (setI s a).last = s.last := rfl
@[simp] theorem setI_draws (a : Addr) : (setI s a).draws = s.draws := rfl
@[simp] theorem reg_setI (a : Addr) (q : RegIx) : reg (setI s a) q = reg s q := rfl
@[simp] theorem memRead_setI (a : Addr) (c : Nat) : memRead (setI s a) c = memRead s c := rfl
@[simp] theorem pixel_setI (a : Addr) (u : Col) (w' : Row) : pixel (setI s a) u w' = pixel s u w' := rfl
@[simp] theorem keyState_setI (a : Addr) (j : KeyIx) : keyState (setI s a) j = keyState s j := rfl

@[simp] theorem setPc_v (a : Addr) : (setPc s a).v = s.v := rfl
@[simp] theorem setPc_i (a : Addr) : (setPc s a).i = s.i := rfl
@[simp] theorem setPc_pc (a : Addr) : (setPc s a).pc = a := rfl
@[simp] theorem setPc_stack (a : Addr) : (setPc s a).stack = s.stack := rfl
@[simp] theorem setPc_mem (a : Addr) : (setPc s a).mem = s.mem := rfl
@[simp] theorem setPc_px (a : Addr) : (setPc s a).px = s.px := rfl
@[simp] theorem setPc_dirty (a : Addr) : (setPc s a).dirty = s.dirty := rfl
@[simp] theorem setPc_dt (a : Addr) : (setPc s a).dt = s.dt := rfl
@[simp] theorem setPc_key (a : Addr) : (setPc s a).key = s.key := rfl
@[simp] theorem setPc_wait (a : Addr) : (setPc s a).wait = s.wait := rfl
@[simp] theorem setPc_last (a : Addr) : (setPc s a).last = s.last := rfl
@[simp] theorem setPc_draws (a : Addr) : (setPc s a).draws = s.draws := rfl
@[simp] theorem reg_setPc (a : Addr) (q : RegIx) : reg (setPc s a) q = reg s q := rfl
@[simp] theorem memRead_setPc (a : Addr) (c : Nat) : memRead (setPc s a) c = memRead s c := rfl
@[simp] theorem pixel_setPc (a : Addr) (u : Col) (w' : Row) : pixel (setPc s a) u w' = pixel s u w' := rfl
@[simp] theorem keyState_setPc (a : Addr) (j : KeyIx) : keyState (setPc s a) j = keyState s j := rfl

@[simp] theorem advancePc_v : (advancePc s).v = s.v := rfl
@[simp] theorem advancePc_i : (advancePc s).i = s.i := rfl
@[simp] theorem advancePc_pc : (advancePc s).pc = s.pc + 2 := rfl
@[simp] theorem advancePc_stack : (advancePc s).stack = s.stack := rfl
@[simp] theorem advancePc_mem : (advancePc s).mem = s.mem := rfl
@[simp] theorem advancePc_px : (advancePc s).px = s.px := rfl
@[simp] theorem advancePc_dirty : (advancePc s).dirty = s.dirty := rfl
@[simp] theorem advancePc_dt : (advancePc s).dt = s.dt := rfl
@[simp] theorem advancePc_key : (advancePc s).key = s.key := rfl
@[simp] theorem advancePc_wait : (advancePc s).wait = s.wait := rfl
@[simp] theorem advancePc_last : (advancePc s).last = s.last := rfl
@[simp] theorem advancePc_draws : (advancePc s).draws = s.draws := rfl
@[simp] theorem reg_advancePc (q : RegIx) : reg (advancePc s) q = reg s q := rfl
@[simp] theorem memRead_advancePc (c : Nat) : memRead (advancePc s) c = memRead s c := rfl
@[simp] theorem pixel_advancePc (u : Col) (w' : Row) : pixel (advancePc s) u w' = pixel s u w' := rfl
@[simp] theorem keyState_advancePc (j : KeyIx) : keyState (advancePc s) j = keyState s j := rfl

@[simp] theorem push_v (a : Addr) : (push s a).v = s.v := rfl
@[simp] theorem push_i (a : Addr) : (push s a).i = s.i := rfl
@[simp] theorem push_pc (a : Addr) : (push s a).pc = s.pc := rfl
@[simp] theorem push_stack (a : Addr) : (push s a).stack = s.stack ++ [a] := rfl
@[simp] theorem push_mem (a : Addr) : (push s a).mem = s.mem := rfl
@[simp] theorem push_px (a : Addr) : (push s a).px = s.px := rfl
@[simp] theorem push_dirty (a : Addr) : (push s a).dirty = s.dirty := rfl
@[simp] theorem push_dt (a : Addr) : (push s a).dt = s.dt := rfl
@[simp] theorem push_key (a : Addr) : (push s a).key = s.key := rfl
@[simp] theorem push_wait (a : Addr) : (push s a).wait = s.wait := rfl
@[simp] theorem push_last (a : Addr) : (push s a).last = s.last := rfl
@[simp] theorem push_draws (a : Addr) : (push s a).draws = s.draws := rfl
@[simp] theorem reg_push (a : Addr) (q : RegIx) : reg (push s a) q = reg s q := rfl
@[simp] theorem memRead_push (a : Addr) (c : Nat) : memRead (push s a) c = memRead s c := rfl
@[simp] theorem pixel_push (a : Addr) (u : Col) (w' : Row) : pixel (push s a) u w' = pixel s u w' := rfl
@[simp] theorem keyState_push (a : Addr) (j : KeyIx) : keyState (push s a) j = keyState s j := rfl

@[simp] theorem dropTop_v : (dropTop s).v = s.v := rfl
@[simp] theorem dropTop_i : (dropTop s).i = s.i := rfl
@[simp] theorem dropTop_pc : (dropTop s).pc = s.pc := rfl
@[simp] theorem dropTop_stack : (dropTop s).stack = s.stack.dropLast := rfl
@[simp] theorem dropTop_mem : (dropTop s).mem = s.mem := rfl
@[simp] theorem dropTop_px : (dropTop s).px = s.px := rfl
@[simp] theorem dropTop_dirty : (dropTop s).dirty = s.dirty := rfl
@[simp] theorem dropTop_dt : (dropTop s).dt = s.dt := rfl
@[simp] theorem dropTop_key : (dropTop s).key = s.key := rfl
@[simp] theorem dropTop_wait : (dropTop s).wait = s.wait := rfl
@[simp] theorem dropTop_last : (dropTop s).last = s.last := rfl
@[simp] theorem dropTop_draws : (dropTop s).draws = s.draws := rfl
@[simp] theorem reg_dropTop (q : RegIx) : reg (dropTop s) q = reg s q := rfl
@[simp] theorem memRead_dropTop (c : Nat) : memRead (dropTop s) c = memRead s c := rfl
@[simp] theorem pixel_dropTop (u : Col) (w' : Row) : pixel (dropTop s) u w' = pixel s u w' := rfl
@[simp] theorem keyState_dropTop (j : KeyIx) : keyState (dropTop s) j = keyState s j := rfl

@[simp] theorem memWrite_v (a : Nat) (b : Byte) : (memWrite s a b).v = s.v := rfl
@[simp] theorem memWrite_i (a : Nat) (b : Byte) : (memWrite s a b).i = s.i := rfl
@[simp] theorem memWrite_pc (a : Nat) (b : Byte) : (memWrite s a b).pc = s.pc := rfl
@[simp] theorem memWrite_stack (a : Nat) (b : Byte) : (memWrite s a b).stack = s.stack := rfl
@[simp] theorem memWrite_mem (a : Nat) (b : Byte) : (memWrite s a b).mem = Memory.put s.mem (ea a) b := rfl
@[simp] theorem memWrite_px (a : Nat) (b : Byte) : (memWrite s a b).px = s.px := rfl
@[simp] theorem memWrite_dirty (a : Nat) (b : Byte) : (memWrite s a b).dirty = s.dirty := rfl
@[simp] theorem memWrite_dt (a : Nat) (b : Byte) : (memWrite s a b).dt = s.dt := rfl
@[simp] theorem memWrite_key (a : Nat) (b : Byte) : (memWrite s a b).key = s.key := rfl
@[simp] theorem memWrite_wait (a : Nat) (b : Byte) : (memWrite s a b).wait = s.wait := rfl
@[simp] theorem memWrite_last (a : Nat) (b : Byte) : (memWrite s a b).last = s.last := rfl
@[simp] theorem memWrite_draws (a : Nat) (b : Byte) : (memWrite s a b).draws = s.draws := rfl
@[simp] theorem reg_memWrite (a : Nat) (b : Byte) (q : RegIx) : reg (memWrite s a b) q = reg s q := rfl
@[simp] theorem pixel_memWrite (a : Nat) (b : Byte) (u : Col) (w' : Row) : pixel (memWrite s a b) u w' = pixel s u w' := rfl
@[simp] theorem keyState_memWrite (a : Nat) (b : Byte) (j : KeyIx) : keyState (memWrite s a b) j = keyState s j := rfl

@[simp] theorem flipPixel_v (x : Col) (y : Row) : (flipPixel s x y).v = s.v := rfl
@[simp] theorem flipPixel_i (x : Col) (y : Row) : (flipPixel s x y).i = s.i := rfl
@[simp] theorem flipPixel_pc (x : Col) (y : Row) : (flipPixel s x y).pc = s.pc := rfl
@[simp] theorem flipPixel_stack (x : Col) (y : Row) : (flipPixel s x y).stack = s.stack := rfl
@[simp] theorem flipPixel_mem (x : Col) (y : Row) : (flipPixel s x y).mem = s.mem := rfl
@[simp] theorem flipPixel_px (x : Col) (y : Row) : (flipPixel s x y).px = s.px.set x.val (s.px[x.val].set y.val (!pixel s x y)) := rfl
@[simp] theorem flipPixel_dirty (x : Col) (y : Row) : (flipPixel s x y).dirty = s.dirty := rfl
@[simp] theorem flipPixel_dt (x : Col) (y : Row) : (flipPixel s x y).dt = s.dt := rfl
@[simp] theorem flipPixel_key (x : Col) (y : Row) : (flipPixel s x y).key = s.key := rfl
@[simp] theorem flipPixel_wait (x : Col) (y : Row) : (flipPixel s x y).wait = s.wait := rfl
@[simp] theorem flipPixel_last (x : Col) (y : Row) : (flipPixel s x y).last = s.last := rfl
@[simp] theorem flipPixel_draws (x : Col) (y : Row) : (flipPixel s x y).draws = s.draws := rfl
@[simp] theorem reg_flipPixel (x : Col) (y : Row) (q : RegIx) : reg (flipPixel s x y) q = reg s q := rfl
@[simp] theorem memRead_flipPixel (x : Col) (y : Row) (c : Nat) : memRead (flipPixel s x y) c = memRead s c := rfl
@[simp] theorem keyState_flipPixel (x : Col) (y : Row) (j : KeyIx) : keyState (flipPixel s x y) j = keyState s j := rfl

@[simp] theorem clearPixels_v : (clearPixels s).v = s.v := rfl
@[simp] theorem clearPixels_i : (clearPixels s).i = s.i := rfl
@[simp] theorem clearPixels_pc : (clearPixels s).pc = s.pc := rfl
@[simp] theorem clearPixels_stack : (clearPixels s).stack = s.stack := rfl
@[simp] theorem clearPixels_mem : (clearPixels s).mem = s.mem := rfl
@[simp] theorem clearPixels_px : (clearPixels s).px = Vector.replicate 64 (Vector.replicate 32 false) := rfl
@[simp] theorem clearPixels_dirty : (clearPixels s).dirty = s.dirty := rfl
@[simp] theorem clearPixels_dt : (clearPixels s).dt = s.dt := rfl
@[simp] theorem clearPixels_key : (clearPixels s).key = s.key := rfl
@[simp] theorem clearPixels_wait : (clearPixels s).wait = s.wait := rfl
@[simp] theorem clearPixels_last : (clearPixels s).last = s.last := rfl
@[simp] theorem clearPixels_draws : (clearPixels s).draws = s.draws := rfl
@[simp] theorem reg_clearPixels (q : RegIx) : reg (clearPixels s) q = reg s q := rfl
@[simp] theorem memRead_clearPixels (c : Nat) : memRead (clearPixels s) c = memRead s c := rfl
@[simp] theorem keyState_clearPixels (j : KeyIx) : keyState (clearPixels s) j = keyState s j := rfl

@[simp] theorem setDirty_v (b : Bool) : (setDirty s b).v = s.v := rfl
@[simp] theorem setDirty_i (b : Bool) : (setDirty s b).i = s.i := rfl
@[simp] theorem setDirty_pc (b : Bool) : (setDirty s b).pc = s.pc := rfl
@[simp] theorem setDirty_stack (b : Bool) : (setDirty s b).stack = s.stack := rfl
@[simp] theorem setDirty_mem (b : Bool) : (setDirty s b).mem = s.mem := rfl
@[simp] theorem setDirty_px (b : Bool) : (setDirty s b).px = s.px := rfl
@[simp] theorem setDirty_dirty (b : Bool) : (setDirty s b).dirty = b := rfl
@[simp] theorem setDirty_dt (b : Bool) : (setDirty s b).dt = s.dt := rfl
@[simp] theorem setDirty_key (b : Bool) : (setDirty s b).key = s.key := rfl
@[simp] theorem setDirty_wait (b : Bool) : (setDirty s b).wait = s.wait := rfl
@[simp] theorem setDirty_last (b : Bool) : (setDirty s b).last = s.last := rfl
@[simp] theorem setDirty_draws (b : Bool) : (setDirty s b).draws = s.draws := rfl
@[simp] theorem reg_setDirty (b : Bool) (q : RegIx) : reg (setDirty s b) q = reg s q := rfl
@[simp] theorem memRead_setDirty (b : Bool) (c : Nat) : memRead (setDirty s b) c = memRead s c := rfl
@[simp] theorem pixel_setDirty (b : Bool) (u : Col) (w' : Row) : pixel (setDirty s b) u w' = pixel s u w' := rfl
@[simp] theorem keyState_setDirty (b : Bool) (j : KeyIx) : keyState (setDirty s b) j = keyState s j := rfl

@[simp] theorem setDt_v (b : Byte) : (setDt s b).v = s.v := rfl
@[simp] theorem setDt_i (b : Byte) : (setDt s b).i = s.i := rfl
@[simp] theorem setDt_pc (b : Byte) : (setDt s b).pc = s.pc := rfl
@[simp] theorem setDt_stack (b : Byte) : (setDt s b).stack = s.stack := rfl
@[simp] theorem setDt_mem (b : Byte) : (setDt s b).mem = s.mem := rfl
@[simp] theorem setDt_px (b : Byte) : (setDt s b).px = s.px := rfl
@[simp] theorem setDt_dirty (b : Byte) : (setDt s b).dirty = s.dirty := rfl
@[simp] theorem setDt_dt (b : Byte) : (setDt s b).dt = b := rfl
@[simp] theorem setDt_key (b : Byte) : (setDt s b).key = s.key := rfl
@[simp] theorem setDt_wait (b : Byte) : (setDt s b).wait = s.wait := rfl
@[simp] theorem setDt_last (b : Byte) : (setDt s b).last = s.last := rfl
@[simp] theorem setDt_draws (b : Byte) : (setDt s b).draws = s.draws := rfl
@[simp] theorem reg_setDt (b : Byte) (q : RegIx) : reg (setDt s b) q = reg s q := rfl
@[simp] theorem memRead_setDt (b : Byte) (c : Nat) : memRead (setDt s b) c = memRead s c := rfl
@[simp] theorem pixel_setDt (b : Byte) (u : Col) (w' : Row) : pixel (setDt s b) u w' = pixel s u w' := rfl
@[simp] theorem keyState_setDt (b : Byte) (j : KeyIx) : keyState (setDt s b) j = keyState s j := rfl

@[simp] theorem tickTimer_v : (tickTimer s).v = s.v := rfl
@[simp] theorem tickTimer_i : (tickTimer s).i = s.i := rfl
@[simp] theorem tickTimer_pc : (tickTimer s).pc = s.pc := rfl
@[simp] theorem tickTimer_stack : (tickTimer s).stack = s.stack := rfl
@[simp] theorem tickTimer_mem : (tickTimer s).mem = s.mem := rfl
@[simp] theorem tickTimer_px : (tickTimer s).px = s.px := rfl
@[simp] theorem tickTimer_dirty : (tickTimer s).dirty = s.dirty := rfl
@[simp] theorem tickTimer_key : (tickTimer s).key = s.key := rfl
@[simp] theorem tickTimer_wait : (tickTimer s).wait = s.wait := rfl
@[simp] theorem tickTimer_last : (tickTimer s).last = s.last := rfl
@[simp] theorem tickTimer_draws : (tickTimer s).draws = s.draws := rfl
@[simp] theorem reg_tickTimer (q : RegIx) : reg (tickTimer s) q = reg s q := rfl
@[simp] theorem memRead_tickTimer (c : Nat) : memRead (tickTimer s) c = memRead s c := rfl
@[simp] theorem pixel_tickTimer (u : Col) (w' : Row) : pixel (tickTimer s) u w' = pixel s u w' := rfl
@[simp] theorem keyState_tickTimer (j : KeyIx) : keyState (tickTimer s) j = keyState s j := rfl

@[simp] theorem setKey_v (k : KeyIx) (b : Bool) : (setKey s k b).v = s.v := rfl
@[simp] theorem setKey_i (k : KeyIx) (b : Bool) : (setKey s k b).i = s.i := rfl
@[simp] theorem setKey_pc (k : KeyIx) (b : Bool) : (setKey s k b).pc = s.pc := rfl
@[simp] theorem setKey_stack (k : KeyIx) (b : Bool) : (setKey s k b).stack = s.stack := rfl
@[simp] theorem setKey_mem (k : KeyIx) (b : Bool) : (setKey s k b).mem = s.mem := rfl
@[simp] theorem setKey_px (k : KeyIx) (b : Bool) : (setKey s k b).px = s.px := rfl
@[simp] theorem setKey_dirty (k : KeyIx) (b : Bool) : (setKey s k b).dirty = s.dirty := rfl
@[simp] theorem setKey_dt (k : KeyIx) (b : Bool) : (setKey s k b).dt = s.dt := rfl
@[simp] theorem setKey_key (k : KeyIx) (b : Bool) : (setKey s k b).key = s.key.set k.val b := rfl
@[simp] theorem setKey_wait (k : KeyIx) (b : Bool) : (setKey s k b).wait = s.wait := rfl
@[simp] theorem setKey_last (k : KeyIx) (b : Bool) : (setKey s k b).last = s.last := rfl
@[simp] theorem setKey_draws (k : KeyIx) (b : Bool) : (setKey s k b).draws = s.draws := rfl
@[simp] theorem reg_setKey (k : KeyIx) (b : Bool) (q : RegIx) : reg (setKey s k b) q = reg s q := rfl
@[simp] theorem memRead_setKey (k : KeyIx) (b : Bool) (c : Nat) : memRead (setKey s k b) c = memRead s c := rfl
@[simp] theorem pixel_setKey (k : KeyIx) (b : Bool) (u : Col) (w' : Row) : pixel (setKey s k b) u w' = pixel s u w' := rfl

@[simp] theorem setWait_v (w : Option RegIx) : (setWait s w).v = s.v := rfl
@[simp] theorem setWait_i (w : Option RegIx) : (setWait s w).i = s.i := rfl
@[simp] theorem setWait_pc (w : Option RegIx) : (setWait s w).pc = s.pc := rfl
@[simp] theorem setWait_stack (w : Option RegIx) : (setWait s w).stack = s.stack := rfl
@[simp] theorem setWait_mem (w : Option RegIx) : (setWait s w).mem = s.mem := rfl
@[simp] theorem setWait_px (w : Option RegIx) : (setWait s w).px = s.px := rfl
@[simp] theorem setWait_dirty (w : Option RegIx) : (setWait s w).dirty = s.dirty := rfl
@[simp] theorem setWait_dt (w : Option RegIx) : (setWait s w).dt = s.dt := rfl
@[simp] theorem setWait_key (w : Option RegIx) : (setWait s w).key = s.key := rfl
@[simp] theorem setWait_wait (w : Option RegIx) : (setWait s w).wait = w := rfl
@[simp] theorem setWait_last (w : Option RegIx) : (setWait s w).last = s.last := rfl
@[simp] theorem setWait_draws (w : Option RegIx) : (setWait s w).draws = s.draws := rfl
@[simp] theorem reg_setWait (w : Option RegIx) (q : RegIx) : reg (setWait s w) q = reg s q := rfl
@[simp] theorem memRead_setWait (w : Option RegIx) (c : Nat) : memRead (setWait s w) c = memRead s c := rfl
@[simp] theorem pixel_setWait (w : Option RegIx) (u : Col) (w' : Row) : pixel (setWait s w) u w' = pixel s u w' := rfl
@[simp] theorem keyState_setWait (w : Option RegIx) (j : KeyIx) : keyState (setWait s w) j = keyState s j := rfl

@[simp] theorem setLast_v (w : Word) : (setLast s w).v = s.v := rfl
@[simp] theorem setLast_i (w : Word) : (setLast s w).i = s.i := rfl
@[simp] theorem setLast_pc (w : Word) : (setLast s w).pc = s.pc := rfl
@[simp] theorem setLast_stack (w : Word) : (setLast s w).stack = s.stack := rfl
@[simp] theorem setLast_mem (w : Word) : (setLast s w).mem = s.mem := rfl
@[simp] theorem setLast_px (w : Word) : (setLast s w).px = s.px := rfl
@[simp] theorem setLast_dirty (w : Word) : (setLast s w).dirty = s.dirty := rfl
@[simp] theorem setLast_dt (w : Word) : (setLast s w).dt = s.dt := rfl
@[simp] theorem setLast_key (w : Word) : (setLast s w).key = s.key := rfl
@[simp] theorem setLast_wait (w : Word) : (setLast s w).wait = s.wait := rfl
@[simp] theorem setLast_last (w : Word) : (setLast s w).last = w := rfl
@[simp] theorem setLast_draws (w : Word) : (setLast s w).draws = s.draws := rfl
@[simp] theorem reg_setLast (w : Word) (q : RegIx) : reg (setLast s w) q = reg s q := rfl
@[simp] theorem memRead_setLast (w : Word) (c : Nat) : memRead (setLast s w) c = memRead s c := rfl
@[simp] theorem pixel_setLast (w : Word) (u : Col) (w' : Row) : pixel (setLast s w) u w' = pixel s u w' := rfl
@[simp] theorem keyState_setLast (w : Word) (j : KeyIx) : keyState (setLast s w) j = keyState s j := rfl

@[simp] theorem nextDraw_v : (nextDraw s).v = s.v := rfl
@[simp] theorem nextDraw_i : (nextDraw s).i = s.i := rfl
@[simp] theorem nextDraw_pc : (nextDraw s).pc = s.pc := rfl
@[simp] theorem nextDraw_stack : (nextDraw s).stack = s.stack := rfl
@[simp] theorem nextDraw_mem : (nextDraw s).mem = s.mem := rfl
@[simp] theorem nextDraw_px : (nextDraw s).px = s.px := rfl
@[simp] theorem nextDraw_dirty : (nextDraw s).dirty = s.dirty := rfl
@[simp] theorem nextDraw_dt : (nextDraw s).dt = s.dt := rfl
@[simp] theorem nextDraw_key : (nextDraw s).key = s.key := rfl
@[simp] theorem nextDraw_wait : (nextDraw s).wait = s.wait := rfl
@[simp] theorem nextDraw_last : (nextDraw s).last = s.last := rfl
@[simp] theorem nextDraw_draws : (nextDraw s).draws = s.draws + 1 := rfl
@[simp] theorem reg_nextDraw (q : RegIx) : reg (nextDraw s) q = reg s q := rfl
@[simp] theorem memRead_nextDraw (c : Nat) : memRead (nextDraw s) c = memRead s c := rfl
@[simp] theorem pixel_nextDraw (u : Col) (w' : Row) : pixel (nextDraw s) u w' = pixel s u w' := rfl
@[simp] theorem keyState_nextDraw (j : KeyIx) : keyState (nextDraw s) j = keyState s j := rfl

end Sys2Proof.Machine
end

