-- ==== Sys2Proof/Laws/Memory.lean ====
section
/-! SUPPORT. Memory: reading after writing, the canonical form is kept by every operation, stored byte runs. -/

namespace Sys2Proof.Machine

theorem Memory.wf_iff (m : Memory) : Memory.wf m = true ↔
    m.Pairwise (fun c d => c.1 < d.1) ∧ ∀ c ∈ m, c.1 < 0x1000 ∧ c.2 ≠ unlistedByte c.1 := by
  simp [Memory.wf]

theorem Memory.wf_nil : Memory.wf [] = true := by decide

/-- An address below every listed one reads as unlisted. -/
theorem Memory.get_of_lt (m : Memory) (a : Nat) (h : ∀ c ∈ m, a < c.1) : Memory.get m a = unlistedByte a := by
  induction m with
  | nil => rfl
  | cons c rest ih =>
    have hc := h c (by simp)
    rw [Memory.get, if_neg (by omega), ih fun d hd => h d (by simp [hd])]

theorem Memory.get_put {m : Memory} (hm : m.Pairwise fun c d => c.1 < d.1) (a : Nat) (b : Byte) (x : Nat) :
    Memory.get (Memory.put m a b) x = if x = a then b else Memory.get m x := by
  induction m with
  | nil =>
    by_cases hb : b = unlistedByte a <;> by_cases hx : x = a
    · subst hx; simp [Memory.put, Memory.get, hb]
    · simp [Memory.put, Memory.get, hb, hx]
    · subst hx; simp [Memory.put, Memory.get, hb]
    · simp [Memory.put, Memory.get, hb, hx, Ne.symm hx]
  | cons c rest ih =>
    obtain ⟨k, v⟩ := c
    obtain ⟨hk, hrest⟩ := List.pairwise_cons.1 hm
    rw [Memory.put]
    by_cases hlt : k < a
    · rw [if_pos hlt, Memory.get, ih hrest, Memory.get]
      by_cases hx : k = x
      · rw [if_pos hx, if_pos hx, if_neg (by omega)]
      · rw [if_neg hx, if_neg hx]
    · rw [if_neg hlt]
      have tail_get : Memory.get (if k = a then rest else (k, v) :: rest) x =
          if x = a then unlistedByte a else Memory.get ((k, v) :: rest) x := by
        by_cases hka : k = a
        · subst hka
          rw [if_pos rfl]
          by_cases hx : x = k
          · subst hx; rw [if_pos rfl, Memory.get_of_lt _ _ hk]
          · rw [if_neg hx, Memory.get, if_neg (Ne.symm hx)]
        · rw [if_neg hka]
          by_cases hx : x = a
          · subst hx
            rw [if_pos rfl, Memory.get_of_lt]
            intro d hd
            rcases List.mem_cons.1 hd with rfl | hd
            · show x < k; omega
            · have := hk d hd; simp only at this; omega
          · rw [if_neg hx]
      by_cases hb : b = unlistedByte a
      · simp only [if_pos hb]; rw [tail_get, hb]
      · simp only [if_neg hb]
        rw [Memory.get, tail_get]
        by_cases hx : a = x
        · subst hx; simp
        · rw [if_neg hx, if_neg (Ne.symm hx), if_neg (Ne.symm hx)]

/-- What `put` lists: the new entry or an old one at another address. -/
theorem Memory.mem_put {m : Memory} (hm : m.Pairwise fun c d => c.1 < d.1) {a : Nat} {b : Byte} {c : Host.Cell}
    (hc : c ∈ Memory.put m a b) : (c = (a, b) ∧ b ≠ unlistedByte a) ∨ (c ∈ m ∧ c.1 ≠ a) := by
  induction m with
  | nil =>
    rw [Memory.put] at hc
    by_cases hb : b = unlistedByte a <;> simp_all
  | cons d rest ih =>
    obtain ⟨k, v⟩ := d
    obtain ⟨hk, hrest⟩ := List.pairwise_cons.1 hm
    rw [Memory.put] at hc
    by_cases hlt : k < a
    · rw [if_pos hlt] at hc
      rcases List.mem_cons.1 hc with rfl | hc
      · exact .inr ⟨by simp, by simp only; omega⟩
      · exact (ih hrest hc).imp_right fun h => ⟨by simp [h.1], h.2⟩
    · rw [if_neg hlt] at hc
      have old : ∀ e ∈ (if k = a then rest else (k, v) :: rest), e ∈ (k, v) :: rest ∧ e.1 ≠ a := by
        intro e he
        by_cases hka : k = a
        · rw [if_pos hka] at he
          have := hk e he
          exact ⟨by simp [he], by simp only at this; omega⟩
        · rw [if_neg hka] at he
          refine ⟨he, ?_⟩
          rcases List.mem_cons.1 he with rfl | he
          · exact hka
          · have := hk e he; simp only at this; omega
      by_cases hb : b = unlistedByte a
      · simp only [if_pos hb] at hc; exact .inr (old c hc)
      · simp only [if_neg hb] at hc
        rcases List.mem_cons.1 hc with rfl | hc
        · exact .inl ⟨rfl, hb⟩
        · exact .inr (old c hc)

theorem Memory.pairwise_put {m : Memory} (hm : m.Pairwise fun c d => c.1 < d.1) (a : Nat) (b : Byte) :
    (Memory.put m a b).Pairwise fun c d => c.1 < d.1 := by
  induction m with
  | nil => rw [Memory.put]; split <;> simp
  | cons d rest ih =>
    obtain ⟨k, v⟩ := d
    obtain ⟨hk, hrest⟩ := List.pairwise_cons.1 hm
    rw [Memory.put]
    by_cases hlt : k < a
    · rw [if_pos hlt]
      refine List.pairwise_cons.2 ⟨fun e he => ?_, ih hrest⟩
      rcases Memory.mem_put hrest he with ⟨rfl, -⟩ | ⟨he, -⟩
      · exact hlt
      · exact hk e he
    · rw [if_neg hlt]
      have tail_sorted : (if k = a then rest else (k, v) :: rest).Pairwise (fun c d => c.1 < d.1) ∧
          ∀ e ∈ (if k = a then rest else (k, v) :: rest), a < e.1 := by
        by_cases hka : k = a
        · rw [if_pos hka]; subst hka; exact ⟨hrest, hk⟩
        · rw [if_neg hka]
          refine ⟨hm, fun e he => ?_⟩
          rcases List.mem_cons.1 he with rfl | he
          · show a < k; omega
          · have := hk e he; simp only at this; omega
      by_cases hb : b = unlistedByte a
      · simp only [if_pos hb]; exact tail_sorted.1
      · simp only [if_neg hb]; exact List.pairwise_cons.2 ⟨tail_sorted.2, tail_sorted.1⟩

/-- Every write keeps the canonical form. -/
theorem Memory.wf_put {m : Memory} (hm : Memory.wf m = true) {a : Nat} (ha : a < 0x1000) (b : Byte) :
    Memory.wf (Memory.put m a b) = true := by
  rw [Memory.wf_iff] at hm ⊢
  refine ⟨Memory.pairwise_put hm.1 a b, fun c hc => ?_⟩
  rcases Memory.mem_put hm.1 hc with ⟨rfl, hb⟩ | ⟨hc, -⟩
  · exact ⟨ha, hb⟩
  · exact hm.2 c hc

theorem ea_lt (a : Nat) : ea a < 0x1000 := Nat.mod_lt _ (by decide)

@[simp] theorem ea_ea (a : Nat) : ea (ea a) = ea a := Nat.mod_mod _ _

theorem inv_memWrite {s : State} (hs : s.inv = true) (a : Nat) (b : Byte) : (memWrite s a b).inv = true :=
  Memory.wf_put hs (ea_lt a) b

/-- One byte read after one byte written, in a state that keeps the canonical form. -/
theorem memRead_memWrite {s : State} (hs : s.inv = true) (a c : Nat) (b : Byte) :
    memRead (memWrite s a b) c = if ea c = ea a then b else memRead s c :=
  Memory.get_put ((Memory.wf_iff _).1 hs).1 _ _ _

/-- Storing bytes changes memory and nothing else. -/
theorem storeBytes_eq (s : State) (a : Nat) (bs : List Byte) :
    storeBytes s a bs = { s with mem := (storeBytes s a bs).mem } := by
  induction bs generalizing s a with
  | nil => rfl
  | cons b bs ih => rw [storeBytes, ih]; rfl

theorem inv_storeBytes {s : State} (hs : s.inv = true) (a : Nat) (bs : List Byte) : (storeBytes s a bs).inv = true := by
  induction bs generalizing s a with
  | nil => exact hs
  | cons b bs ih => exact ih (inv_memWrite hs a b) _

/-- An address that is none of the stored ones reads as before. -/
theorem memRead_storeBytes_other {s : State} (hs : s.inv = true) (a : Nat) (bs : List Byte) (c : Nat)
    (hc : ∀ j < bs.length, ea c ≠ ea (a + j)) : memRead (storeBytes s a bs) c = memRead s c := by
  induction bs generalizing s a with
  | nil => rfl
  | cons b bs ih =>
    rw [storeBytes, ih (inv_memWrite hs a b), memRead_memWrite hs, if_neg (by simpa using hc 0 (by simp))]
    intro j hj
    have := hc (j + 1) (by simpa using hj)
    rwa [show a + 1 + j = a + (j + 1) by omega]

/-- Byte j of at most 4096 stored bytes is read back at offset j: their wrapped addresses are distinct. -/
theorem memRead_storeBytes_same {s : State} (hs : s.inv = true) (a : Nat) (bs : List Byte) (hlen : bs.length ≤ 0x1000)
    (j : Nat) (hj : j < bs.length) : memRead (storeBytes s a bs) (a + j) = bs[j] := by
  induction bs generalizing s a j with
  | nil => simp at hj
  | cons b bs ih =>
    have hl : bs.length + 1 ≤ 0x1000 := by simpa using hlen
    rw [storeBytes]
    cases j with
    | zero =>
      rw [memRead_storeBytes_other (inv_memWrite hs a b), memRead_memWrite hs, if_pos (by simp)]
      · rfl
      · intro j hj
        simp only [ea]; omega
    | succ j =>
      have := ih (inv_memWrite hs a b) (a + 1) (by omega) j (by simpa using hj)
      rw [show a + (j + 1) = a + 1 + j by omega, this]; rfl

end Sys2Proof.Machine
end

