-- ==== Sys2Proof/Laws/Registers.lean ====
section
/-! SUPPORT. Registers, keys and pixels: reading after writing, and what loading registers does. -/

namespace Sys2Proof.Machine

@[simp] theorem reg_setReg (s : State) (r q : RegIx) (b : Byte) :
    reg (setReg s r b) q = if q = r then b else reg s q := by
  unfold reg setReg
  rw [Vector.getElem_set]
  by_cases h : q = r
  · subst h; simp
  · rw [if_neg (fun hv => h (Fin.ext hv.symm)), if_neg h]

/-- The result goes to `V[x]` unless x is F; VF holds the flag. -/
theorem reg_writeResultFlag (s : State) (x : RegIx) (result flag : Byte) (q : RegIx) :
    reg (writeResultFlag s x result flag) q = if q = vf then flag else if q = x then result else reg s q := by
  simp [writeResultFlag]

/-- Loading registers changes the register file and nothing else. -/
theorem loadRegs_eq (s : State) (a n : Nat) : loadRegs s a n = { s with v := (loadRegs s a n).v } := by
  induction n with
  | zero => rfl
  | succ n ih => rw [loadRegs, ih]; rfl

@[simp] theorem memRead_loadRegs (s : State) (a n c : Nat) : memRead (loadRegs s a n) c = memRead s c := by
  rw [loadRegs_eq]; rfl

/-- The first `n` registers, n at most 16, hold the bytes at `a` upward; the others are as they were. -/
theorem reg_loadRegs (s : State) (a n : Nat) (hn : n ≤ 16) (r : RegIx) :
    reg (loadRegs s a n) r = if r.val < n then memRead s (a + r.val) else reg s r := by
  induction n with
  | zero => simp [loadRegs]
  | succ n ih =>
    rw [loadRegs, reg_setReg, ih (by omega), memRead_loadRegs]
    have hv : (Fin.ofNat 16 n).val = n := by simp [Fin.ofNat]; omega
    by_cases h : r = Fin.ofNat 16 n
    · rw [if_pos h, if_pos (by rw [h, hv]; omega), h, hv]
    · have hne : r.val ≠ n := fun e => h (Fin.ext (by rw [hv, e]))
      rw [if_neg h]
      by_cases hlt : r.val < n
      · rw [if_pos hlt, if_pos (by omega)]
      · rw [if_neg hlt, if_neg (by omega)]

theorem length_regsUpTo (s : State) (x : RegIx) : (regsUpTo s x).length = x.val + 1 := by
  simp [regsUpTo]

theorem getElem_regsUpTo (s : State) (x r : RegIx) (h : r.val < (regsUpTo s x).length) :
    (regsUpTo s x)[r.val] = reg s r := by
  simp [regsUpTo, reg]

@[simp] theorem keyState_setKey (s : State) (k j : KeyIx) (b : Bool) :
    keyState (setKey s k b) j = if j = k then b else keyState s j := by
  unfold keyState setKey
  rw [Vector.getElem_set]
  by_cases h : j = k
  · subst h; simp
  · rw [if_neg (fun hv => h (Fin.ext hv.symm)), if_neg h]

@[simp] theorem pixel_flipPixel (s : State) (x u : Col) (y w : Row) :
    pixel (flipPixel s x y) u w = if u = x ∧ w = y then !pixel s x y else pixel s u w := by
  unfold flipPixel
  show (s.px.set x.val (s.px[x.val].set y.val (!pixel s x y)))[u.val][w.val] = _
  by_cases hu : u = x
  · subst hu
    by_cases hw : w = y
    · subst hw; simp
    · simp only [Vector.getElem_set_self, true_and, if_neg hw]
      rw [Vector.getElem_set_ne _ _ (fun hv => hw (Fin.ext hv.symm))]; rfl
  · rw [Vector.getElem_set_ne _ _ (fun hv => hu (Fin.ext hv.symm)), if_neg (by simp [hu])]; rfl

@[simp] theorem pixel_clearPixels (s : State) (x : Col) (y : Row) : pixel (clearPixels s) x y = false := by
  simp [pixel, clearPixels]

end Sys2Proof.Machine
end

