-- ==== Sys2Proof/Laws/Display.lean ====
section
/-! SUPPORT. What the drawing loop of Dxyn does in the end: each covered pixel is flipped, VF records a collision, and
nothing else changes (R121). -/

namespace Sys2Proof.Machine

/-- The first `c` pixels of sprite row `r`, byte `b`, have a 1 bit on (px, py). -/
def colsCover (x0 y0 b : Byte) (r c : Nat) (px : Col) (py : Row) : Bool :=
  (List.range c).any fun j => spriteBit b j && px == spriteCol x0 j && py == spriteRow y0 r

/-- The first `n` sprite rows have a 1 bit on (px, py). -/
def rowsCover (s : State) (x0 y0 : Byte) (n : Nat) (px : Col) (py : Row) : Bool :=
  (List.range n).any fun r => colsCover x0 y0 (memRead s (indexBase s + r)) r 8 px py

/-- Some 1 bit of the first `c` pixels of sprite row `r` falls on a set pixel. -/
def colsCollide (s : State) (x0 y0 b : Byte) (r c : Nat) : Bool :=
  (List.range c).any fun j => spriteBit b j && pixel s (spriteCol x0 j) (spriteRow y0 r)

/-- Some 1 bit of the first `n` sprite rows falls on a set pixel. -/
def rowsCollide (s : State) (x0 y0 : Byte) (n : Nat) : Bool :=
  (List.range n).any fun r => colsCollide s x0 y0 (memRead s (indexBase s + r)) r 8

/-- Drawing changes pixels and registers only. -/
theorem drawPixel_eq (s : State) (px : Col) (py : Row) :
    drawPixel s px py = { s with v := (drawPixel s px py).v, px := (drawPixel s px py).px } := by
  unfold drawPixel; split <;> rfl

theorem drawCols_eq (x0 y0 b : Byte) (r : Nat) (s : State) (c : Nat) :
    drawCols x0 y0 b r s c = { s with v := (drawCols x0 y0 b r s c).v, px := (drawCols x0 y0 b r s c).px } := by
  induction c with
  | zero => rfl
  | succ c ih =>
    rw [drawCols]
    split
    · rw [drawPixel_eq, ih]
    · exact ih

theorem drawRows_eq (x0 y0 : Byte) (s : State) (n : Nat) :
    drawRows x0 y0 s n = { s with v := (drawRows x0 y0 s n).v, px := (drawRows x0 y0 s n).px } := by
  induction n with
  | zero => rfl
  | succ n ih => rw [drawRows, drawCols_eq, ih]

theorem memRead_drawRows (x0 y0 : Byte) (s : State) (n a : Nat) : memRead (drawRows x0 y0 s n) a = memRead s a := by
  rw [drawRows_eq]; rfl

theorem indexBase_drawRows (x0 y0 : Byte) (s : State) (n : Nat) : indexBase (drawRows x0 y0 s n) = indexBase s := by
  rw [drawRows_eq]; rfl

theorem pixel_drawPixel (s : State) (x u : Col) (y w : Row) :
    pixel (drawPixel s x y) u w = Bool.xor (pixel s u w) (u == x && w == y) := by
  unfold drawPixel
  have h : ∀ t : State, (∀ a b, pixel t a b = pixel s a b) →
      pixel (flipPixel t x y) u w = Bool.xor (pixel s u w) (u == x && w == y) := by
    intro t ht
    rw [pixel_flipPixel]
    by_cases hx : u = x
    · subst hx
      by_cases hy : w = y
      · subst hy; simp [ht]
      · simp [hy, ht, beq_eq_false_iff_ne.2 hy]
    · simp [hx, ht, beq_eq_false_iff_ne.2 hx]
  split
  · exact h _ fun a b => rfl
  · exact h _ fun a b => rfl

theorem reg_drawPixel (s : State) (x : Col) (y : Row) (q : RegIx) :
    reg (drawPixel s x y) q = if q = vf ∧ pixel s x y = true then 1 else reg s q := by
  unfold drawPixel
  rw [reg_flipPixel]
  by_cases hp : pixel s x y <;> by_cases hq : q = vf <;> simp [hp, hq]

/-- Eight columns never meet themselves modulo 64. -/
theorem spriteCol_ne (x0 : Byte) {j c : Nat} (hj : j < c) (hc : c < 8) : spriteCol x0 c ≠ spriteCol x0 j := by
  intro h
  have := congrArg Fin.val h
  simp only [spriteCol, Fin.ofNat] at this
  omega

/-- Fifteen rows never meet themselves modulo 32. -/
theorem spriteRow_ne (y0 : Byte) {j r : Nat} (hj : j < r) (hr : r < 16) : spriteRow y0 r ≠ spriteRow y0 j := by
  intro h
  have := congrArg Fin.val h
  simp only [spriteRow, Fin.ofNat] at this
  omega

theorem colsCover_row {x0 y0 b : Byte} {r c : Nat} {px : Col} {py : Row} (h : py ≠ spriteRow y0 r) :
    colsCover x0 y0 b r c px py = false := by
  simp [colsCover, h]

theorem colsCover_self (x0 y0 b : Byte) (r : Nat) {c : Nat} (hc : c < 8) (py : Row) :
    colsCover x0 y0 b r c (spriteCol x0 c) py = false := by
  simp only [colsCover, List.any_eq_false, List.mem_range]
  intro j hj
  simp [spriteCol_ne x0 hj hc]

/-- What one sprite row does to every pixel. -/
theorem pixel_drawCols (x0 y0 b : Byte) (r : Nat) (s : State) (c : Nat) (hc : c ≤ 8) (px : Col) (py : Row) :
    pixel (drawCols x0 y0 b r s c) px py = Bool.xor (pixel s px py) (colsCover x0 y0 b r c px py) := by
  induction c with
  | zero => simp [drawCols, colsCover]
  | succ c ih =>
    have ih := ih (by omega)
    have split_last : colsCover x0 y0 b r (c + 1) px py =
        (colsCover x0 y0 b r c px py || (spriteBit b c && px == spriteCol x0 c && py == spriteRow y0 r)) := by
      simp [colsCover, List.range_succ]
    rw [drawCols, split_last]
    by_cases hb : spriteBit b c
    · simp only [hb, if_true, Bool.true_and]
      rw [pixel_drawPixel, ih]
      by_cases hx : px = spriteCol x0 c
      · subst hx; rw [colsCover_self _ _ _ _ (by omega)]; simp
      · simp [beq_eq_false_iff_ne.2 hx]
    · simp only [hb]; simp [ih]

/-- What one sprite row does to the registers: VF records a collision, no other register changes. -/
theorem reg_drawCols (x0 y0 b : Byte) (r : Nat) (s : State) (c : Nat) (hc : c ≤ 8) (q : RegIx) :
    reg (drawCols x0 y0 b r s c) q = if q = vf ∧ colsCollide s x0 y0 b r c = true then 1 else reg s q := by
  induction c with
  | zero => simp [drawCols, colsCollide]
  | succ c ih =>
    have ih := ih (by omega)
    have split_last : colsCollide s x0 y0 b r (c + 1) =
        (colsCollide s x0 y0 b r c || (spriteBit b c && pixel s (spriteCol x0 c) (spriteRow y0 r))) := by
      simp [colsCollide, List.range_succ]
    rw [drawCols, split_last]
    by_cases hb : spriteBit b c
    · simp only [hb, if_true, Bool.true_and]
      rw [reg_drawPixel, ih, pixel_drawCols _ _ _ _ _ _ (by omega), colsCover_self _ _ _ _ (by omega)]
      by_cases hq : q = vf <;> by_cases hp : pixel s (spriteCol x0 c) (spriteRow y0 r) <;> simp [hq, hp]
    · simp only [hb]; simp [ih]

theorem rowsCover_succ (s : State) (x0 y0 : Byte) (n : Nat) (px : Col) (py : Row) :
    rowsCover s x0 y0 (n + 1) px py =
      (rowsCover s x0 y0 n px py || colsCover x0 y0 (memRead s (indexBase s + n)) n 8 px py) := by
  simp [rowsCover, List.range_succ]

theorem rowsCover_self (s : State) (x0 y0 : Byte) {n : Nat} (hn : n < 16) (px : Col) :
    rowsCover s x0 y0 n px (spriteRow y0 n) = false := by
  simp only [rowsCover, List.any_eq_false, List.mem_range]
  intro r hr
  rw [colsCover_row (spriteRow_ne y0 hr hn)]; simp

/-- The net effect of the drawing loop on every pixel: it is flipped when the sprite covers it. -/
theorem pixel_drawRows (x0 y0 : Byte) (s : State) (n : Nat) (hn : n ≤ 16) (px : Col) (py : Row) :
    pixel (drawRows x0 y0 s n) px py = Bool.xor (pixel s px py) (rowsCover s x0 y0 n px py) := by
  induction n with
  | zero => simp [drawRows, rowsCover]
  | succ n ih =>
    have ih := ih (by omega)
    rw [drawRows, memRead_drawRows, indexBase_drawRows, pixel_drawCols _ _ _ _ _ _ (le_refl 8), ih, rowsCover_succ]
    by_cases hy : py = spriteRow y0 n
    · subst hy; rw [rowsCover_self _ _ _ (by omega)]; simp
    · rw [colsCover_row hy]; simp

/-- The net effect of the drawing loop on the registers: VF is 1 after a collision, no other register changes. -/
theorem reg_drawRows (x0 y0 : Byte) (s : State) (n : Nat) (hn : n ≤ 16) (q : RegIx) :
    reg (drawRows x0 y0 s n) q = if q = vf ∧ rowsCollide s x0 y0 n = true then 1 else reg s q := by
  induction n with
  | zero => simp [drawRows, rowsCollide]
  | succ n ih =>
    have ih := ih (by omega)
    have split_last : rowsCollide s x0 y0 (n + 1) =
        (rowsCollide s x0 y0 n || colsCollide s x0 y0 (memRead s (indexBase s + n)) n 8) := by
      simp [rowsCollide, List.range_succ]
    have same_row : ∀ b : Byte, colsCollide (drawRows x0 y0 s n) x0 y0 b n 8 = colsCollide s x0 y0 b n 8 := by
      intro b
      simp only [colsCollide, pixel_drawRows _ _ _ _ (show n ≤ 16 by omega), rowsCover_self s x0 y0 (show n < 16 by omega),
        Bool.xor_false]
    rw [drawRows, memRead_drawRows, indexBase_drawRows, reg_drawCols _ _ _ _ _ _ (le_refl 8), ih, same_row, split_last]
    by_cases hq : q = vf <;> by_cases h1 : rowsCollide s x0 y0 n = true <;>
      by_cases h2 : colsCollide s x0 y0 (memRead s (indexBase s + n)) n 8 = true <;> simp_all

/-- The sprite of the rule covers a pixel exactly when the loop's rows do. -/
theorem rowsCover_iff (s : State) (x0 y0 : Byte) (n : Nat) (px : Col) (py : Row) :
    rowsCover s x0 y0 n px py = true ↔ SpriteCovers s x0 y0 n px py := by
  simp only [rowsCover, colsCover, SpriteCovers, List.any_eq_true, List.mem_range, Bool.and_eq_true, beq_iff_eq,
    spriteBit, spriteCol, spriteRow, Fin.ext_iff, Fin.ofNat]
  constructor
  · rintro ⟨r, hr, c, hc, ⟨hb, hx⟩, hy⟩; exact ⟨r, c, hr, hc, hx, hy, hb⟩
  · rintro ⟨r, c, hr, hc, hx, hy, hb⟩; exact ⟨r, hr, c, hc, ⟨hb, hx⟩, hy⟩

/-- The loop records a collision exactly when the sprite covers a set pixel. -/
theorem rowsCollide_iff (s : State) (x0 y0 : Byte) (n : Nat) :
    rowsCollide s x0 y0 n = true ↔ ∃ px py, rowsCover s x0 y0 n px py = true ∧ pixel s px py = true := by
  simp only [rowsCollide, colsCollide, rowsCover, colsCover, List.any_eq_true, List.mem_range, Bool.and_eq_true, beq_iff_eq]
  constructor
  · rintro ⟨r, hr, c, hc, hb, hp⟩; exact ⟨_, _, ⟨r, hr, c, hc, ⟨hb, rfl⟩, rfl⟩, hp⟩
  · rintro ⟨px, py, ⟨r, hr, c, hc, ⟨hb, hx⟩, hy⟩, hp⟩; exact ⟨r, hr, c, hc, hb, by rw [← hx, ← hy]; exact hp⟩

end Sys2Proof.Machine
end

