-- ==== Sys2Proof/Laws/Fields.lean ====
section
/-! SUPPORT. Words as their fields: the fields of an encoded word, a word as its two bytes, a word under a mask. -/

namespace Sys2Proof

/-! The shapes of a word: class and address, class and x and kk, class and x and y and n. -/

theorem append_nnn_toNat (c : Nibble) (a : Addr) : (c ++ a : Word).toNat = c.toNat * 4096 + a.toNat := by
  have := a.isLt
  show (c ++ a).toNat = _
  rw [BitVec.toNat_append, ← Nat.shiftLeft_add_eq_or_of_lt this, Nat.shiftLeft_eq]

theorem append_xkk_toNat (c x : Nibble) (k : Byte) :
    (c ++ x ++ k : Word).toNat = c.toNat * 4096 + x.toNat * 256 + k.toNat := by
  have hx := x.isLt
  have hk := k.isLt
  show (c ++ x ++ k).toNat = _
  rw [BitVec.toNat_append, BitVec.toNat_append, ← Nat.shiftLeft_add_eq_or_of_lt hx, ← Nat.shiftLeft_add_eq_or_of_lt hk,
    Nat.shiftLeft_eq, Nat.shiftLeft_eq]
  omega

theorem append_xyn_toNat (c x y n : Nibble) :
    (c ++ x ++ y ++ n : Word).toNat = c.toNat * 4096 + x.toNat * 256 + y.toNat * 16 + n.toNat := by
  have hx := x.isLt
  have hy := y.isLt
  have hn := n.isLt
  show (c ++ x ++ y ++ n).toNat = _
  rw [BitVec.toNat_append, BitVec.toNat_append, BitVec.toNat_append, ← Nat.shiftLeft_add_eq_or_of_lt hx,
    ← Nat.shiftLeft_add_eq_or_of_lt hy, ← Nat.shiftLeft_add_eq_or_of_lt hn, Nat.shiftLeft_eq, Nat.shiftLeft_eq, Nat.shiftLeft_eq]
  omega

/-! The fields of a word as quotients and remainders. -/

theorem wordClass_toNat (w : Word) : (wordClass w).toNat = w.toNat / 4096 := by
  have := w.isLt
  simp [wordClass, Nat.shiftRight_eq_div_pow]; omega

theorem fieldX_val (w : Word) : (fieldX w).val = w.toNat / 256 % 16 := by
  show (w.extractLsb' 8 4).toNat = _
  simp [Nat.shiftRight_eq_div_pow]

theorem fieldY_val (w : Word) : (fieldY w).val = w.toNat / 16 % 16 := by
  show (w.extractLsb' 4 4).toNat = _
  simp [Nat.shiftRight_eq_div_pow]

theorem fieldN_toNat (w : Word) : (fieldN w).toNat = w.toNat % 16 := by simp [fieldN]

theorem fieldKk_toNat (w : Word) : (fieldKk w).toNat = w.toNat % 256 := by simp [fieldKk]

theorem fieldNnn_toNat (w : Word) : (fieldNnn w).toNat = w.toNat % 4096 := by simp [fieldNnn]

@[simp] theorem regBits_toNat (r : RegIx) : (regBits r).toNat = r.val := rfl

/-! The fields of a word of each shape. -/

@[simp] theorem wordClass_nnn (c : Nibble) (a : Addr) : wordClass (c ++ a) = c := by
  apply BitVec.eq_of_toNat_eq; rw [wordClass_toNat, append_nnn_toNat]; omega

@[simp] theorem fieldNnn_nnn (c : Nibble) (a : Addr) : fieldNnn (c ++ a) = a := by
  apply BitVec.eq_of_toNat_eq; rw [fieldNnn_toNat, append_nnn_toNat]; omega

@[simp] theorem wordClass_xkk (c x : Nibble) (k : Byte) : wordClass (c ++ x ++ k) = c := by
  apply BitVec.eq_of_toNat_eq; rw [wordClass_toNat, append_xkk_toNat]; omega

@[simp] theorem fieldX_xkk (c : Nibble) (x : RegIx) (k : Byte) : fieldX (c ++ regBits x ++ k) = x := by
  apply Fin.ext; rw [fieldX_val, append_xkk_toNat, regBits_toNat]; omega

@[simp] theorem fieldKk_xkk (c x : Nibble) (k : Byte) : fieldKk (c ++ x ++ k) = k := by
  apply BitVec.eq_of_toNat_eq; rw [fieldKk_toNat, append_xkk_toNat]; omega

@[simp] theorem wordClass_xyn (c x y n : Nibble) : wordClass (c ++ x ++ y ++ n) = c := by
  apply BitVec.eq_of_toNat_eq; rw [wordClass_toNat, append_xyn_toNat]; omega

@[simp] theorem fieldX_xyn (c : Nibble) (x : RegIx) (y n : Nibble) : fieldX (c ++ regBits x ++ y ++ n) = x := by
  apply Fin.ext; rw [fieldX_val, append_xyn_toNat, regBits_toNat]; omega

@[simp] theorem fieldY_xyn (c x : Nibble) (y : RegIx) (n : Nibble) : fieldY (c ++ x ++ regBits y ++ n) = y := by
  apply Fin.ext; rw [fieldY_val, append_xyn_toNat, regBits_toNat]; omega

@[simp] theorem fieldN_xyn (c x y n : Nibble) : fieldN (c ++ x ++ y ++ n) = n := by
  apply BitVec.eq_of_toNat_eq; rw [fieldN_toNat, append_xyn_toNat]; omega

theorem highByte_toNat (w : Word) : (highByte w).toNat = w.toNat / 256 := by
  have := w.isLt
  simp [highByte, Nat.shiftRight_eq_div_pow]; omega

theorem lowByte_toNat (w : Word) : (lowByte w).toNat = w.toNat % 256 := by simp [lowByte]

theorem wordOfBytes_toNat (hi lo : Byte) : (wordOfBytes hi lo).toNat = hi.toNat * 256 + lo.toNat := by
  have := lo.isLt
  show (hi ++ lo).toNat = _
  rw [BitVec.toNat_append, ← Nat.shiftLeft_add_eq_or_of_lt this, Nat.shiftLeft_eq]

/-- A word is made of its two bytes (R33). -/
@[simp] theorem wordOfBytes_highByte_lowByte (w : Word) : wordOfBytes (highByte w) (lowByte w) = w := by
  apply BitVec.eq_of_toNat_eq; rw [wordOfBytes_toNat, highByte_toNat, lowByte_toNat]; omega

/-! A word of each shape under the masks of R60. -/

theorem nibble_and_ones (c : Nibble) : c &&& 15#4 = c := by revert c; decide

theorem byte_and_ones (k : Byte) : k &&& 255#8 = k := by
  apply BitVec.eq_of_toNat_eq
  rw [BitVec.toNat_and]
  exact (Nat.and_two_pow_sub_one_eq_mod k.toNat 8).trans (Nat.mod_eq_of_lt k.isLt)

theorem nnn_and_F000 (c : Nibble) (a : Addr) : (c ++ a : Word) &&& 0xF000 = c ++ 0#12 := by
  have h : (0xF000 : Word) = 0xF#4 ++ 0#12 := by decide
  rw [h, BitVec.and_append]; simp [nibble_and_ones]

theorem xkk_and_F000 (c x : Nibble) (k : Byte) : (c ++ x ++ k : Word) &&& 0xF000 = c ++ 0#4 ++ 0#8 := by
  have h : (0xF000 : Word) = 0xF#4 ++ 0#4 ++ 0#8 := by decide
  rw [h, BitVec.and_append, BitVec.and_append]; simp [nibble_and_ones]

theorem xkk_and_F0FF (c x : Nibble) (k : Byte) : (c ++ x ++ k : Word) &&& 0xF0FF = c ++ 0#4 ++ k := by
  have h : (0xF0FF : Word) = 0xF#4 ++ 0#4 ++ 0xFF#8 := by decide
  rw [h, BitVec.and_append, BitVec.and_append]
  simp [nibble_and_ones, byte_and_ones]

theorem xyn_and_F000 (c x y n : Nibble) : (c ++ x ++ y ++ n : Word) &&& 0xF000 = c ++ 0#4 ++ 0#4 ++ 0#4 := by
  have h : (0xF000 : Word) = 0xF#4 ++ 0#4 ++ 0#4 ++ 0#4 := by decide
  rw [h, BitVec.and_append, BitVec.and_append, BitVec.and_append]; simp [nibble_and_ones]

theorem xyn_and_F00F (c x y n : Nibble) : (c ++ x ++ y ++ n : Word) &&& 0xF00F = c ++ 0#4 ++ 0#4 ++ n := by
  have h : (0xF00F : Word) = 0xF#4 ++ 0#4 ++ 0#4 ++ 0xF#4 := by decide
  rw [h, BitVec.and_append, BitVec.and_append, BitVec.and_append]; simp [nibble_and_ones]

end Sys2Proof
end

