-- ==== Sys2Proof/Laws/PerInstr.lean ====
section
/-! SUPPORT. Per instruction: its encoding matches its row of the opcode map (R60), with every operand. -/

namespace Sys2Proof.Laws.RowMatch

/-- The word of the instruction matches a row of the map that has its name (R60). -/
def Statement (i : Instr) : Prop := ∃ row ∈ opcodeTable, row.mnemonic = i.mnemonic ∧ row.matches (encode i) = true

/-- The row to look at, and the match as an equation between words. -/
theorem of_row {i : Instr} (row : OpcodeRow) (hrow : row ∈ opcodeTable) (hname : row.mnemonic = i.mnemonic)
    (h : encode i &&& row.mask = row.pattern) : Statement i :=
  ⟨row, hrow, hname, by simp [OpcodeRow.matches, h]⟩

theorem cls : Statement .cls :=
  of_row ⟨"CLS", 0xFFFF, 0x00E0⟩ (by decide) rfl (by decide)

theorem ret : Statement .ret :=
  of_row ⟨"RET", 0xFFFF, 0x00EE⟩ (by decide) rfl (by decide)

theorem sys (nnn : Addr) : Statement (.sys nnn) :=
  of_row ⟨"SYS", 0xF000, 0x0000⟩ (by decide) rfl (nnn_and_F000 ..)

theorem jp (nnn : Addr) : Statement (.jp nnn) :=
  of_row ⟨"JP", 0xF000, 0x1000⟩ (by decide) rfl (nnn_and_F000 ..)

theorem call (nnn : Addr) : Statement (.call nnn) :=
  of_row ⟨"CALL", 0xF000, 0x2000⟩ (by decide) rfl (nnn_and_F000 ..)

theorem seImm (x : RegIx) (kk : Byte) : Statement (.seImm x kk) :=
  of_row ⟨"SE_IMM", 0xF000, 0x3000⟩ (by decide) rfl (xkk_and_F000 ..)

theorem sneImm (x : RegIx) (kk : Byte) : Statement (.sneImm x kk) :=
  of_row ⟨"SNE_IMM", 0xF000, 0x4000⟩ (by decide) rfl (xkk_and_F000 ..)

theorem seReg (x : RegIx) (y : RegIx) (n : Nibble) : Statement (.seReg x y n) :=
  of_row ⟨"SE_REG", 0xF000, 0x5000⟩ (by decide) rfl (xyn_and_F000 ..)

theorem ldImm (x : RegIx) (kk : Byte) : Statement (.ldImm x kk) :=
  of_row ⟨"LD_IMM", 0xF000, 0x6000⟩ (by decide) rfl (xkk_and_F000 ..)

theorem addImm (x : RegIx) (kk : Byte) : Statement (.addImm x kk) :=
  of_row ⟨"ADD_IMM", 0xF000, 0x7000⟩ (by decide) rfl (xkk_and_F000 ..)

theorem ldReg (x : RegIx) (y : RegIx) : Statement (.ldReg x y) :=
  of_row ⟨"LD_REG", 0xF00F, 0x8000⟩ (by decide) rfl (xyn_and_F00F ..)

theorem orReg (x : RegIx) (y : RegIx) : Statement (.orReg x y) :=
  of_row ⟨"OR", 0xF00F, 0x8001⟩ (by decide) rfl (xyn_and_F00F ..)

theorem andReg (x : RegIx) (y : RegIx) : Statement (.andReg x y) :=
  of_row ⟨"AND", 0xF00F, 0x8002⟩ (by decide) rfl (xyn_and_F00F ..)

theorem xorReg (x : RegIx) (y : RegIx) : Statement (.xorReg x y) :=
  of_row ⟨"XOR", 0xF00F, 0x8003⟩ (by decide) rfl (xyn_and_F00F ..)

theorem addReg (x : RegIx) (y : RegIx) : Statement (.addReg x y) :=
  of_row ⟨"ADD_REG", 0xF00F, 0x8004⟩ (by decide) rfl (xyn_and_F00F ..)

theorem sub (x : RegIx) (y : RegIx) : Statement (.sub x y) :=
  of_row ⟨"SUB", 0xF00F, 0x8005⟩ (by decide) rfl (xyn_and_F00F ..)

theorem shr (x : RegIx) (y : RegIx) : Statement (.shr x y) :=
  of_row ⟨"SHR", 0xF00F, 0x8006⟩ (by decide) rfl (xyn_and_F00F ..)

theorem subn (x : RegIx) (y : RegIx) : Statement (.subn x y) :=
  of_row ⟨"SUBN", 0xF00F, 0x8007⟩ (by decide) rfl (xyn_and_F00F ..)

theorem shl (x : RegIx) (y : RegIx) : Statement (.shl x y) :=
  of_row ⟨"SHL", 0xF00F, 0x800E⟩ (by decide) rfl (xyn_and_F00F ..)

theorem nop8 (x : RegIx) (y : RegIx) (n : Nibble) : Statement (.nop8 x y n) :=
  of_row ⟨"NOP8", 0xF000, 0x8000⟩ (by decide) rfl (xyn_and_F000 ..)

theorem sneReg (x : RegIx) (y : RegIx) (n : Nibble) : Statement (.sneReg x y n) :=
  of_row ⟨"SNE_REG", 0xF000, 0x9000⟩ (by decide) rfl (xyn_and_F000 ..)

theorem ldI (nnn : Addr) : Statement (.ldI nnn) :=
  of_row ⟨"LD_I", 0xF000, 0xA000⟩ (by decide) rfl (nnn_and_F000 ..)

theorem jpV0 (nnn : Addr) : Statement (.jpV0 nnn) :=
  of_row ⟨"JP_V0", 0xF000, 0xB000⟩ (by decide) rfl (nnn_and_F000 ..)

theorem rnd (x : RegIx) (kk : Byte) : Statement (.rnd x kk) :=
  of_row ⟨"RND", 0xF000, 0xC000⟩ (by decide) rfl (xkk_and_F000 ..)

theorem drw (x : RegIx) (y : RegIx) (n : Fin 16) : Statement (.drw x y n) :=
  of_row ⟨"DRW", 0xF000, 0xD000⟩ (by decide) rfl (xyn_and_F000 ..)

theorem skp (x : RegIx) : Statement (.skp x) :=
  of_row ⟨"SKP", 0xF0FF, 0xE09E⟩ (by decide) rfl (xkk_and_F0FF ..)

theorem sknp (x : RegIx) : Statement (.sknp x) :=
  of_row ⟨"SKNP", 0xF0FF, 0xE0A1⟩ (by decide) rfl (xkk_and_F0FF ..)

theorem nope (x : RegIx) (kk : Byte) : Statement (.nope x kk) :=
  of_row ⟨"NOPE", 0xF000, 0xE000⟩ (by decide) rfl (xkk_and_F000 ..)

theorem ldVxDt (x : RegIx) : Statement (.ldVxDt x) :=
  of_row ⟨"LD_VX_DT", 0xF0FF, 0xF007⟩ (by decide) rfl (xkk_and_F0FF ..)

theorem ldVxK (x : RegIx) : Statement (.ldVxK x) :=
  of_row ⟨"LD_VX_K", 0xF0FF, 0xF00A⟩ (by decide) rfl (xkk_and_F0FF ..)

theorem ldDtVx (x : RegIx) : Statement (.ldDtVx x) :=
  of_row ⟨"LD_DT_VX", 0xF0FF, 0xF015⟩ (by decide) rfl (xkk_and_F0FF ..)

theorem ldStVx (x : RegIx) : Statement (.ldStVx x) :=
  of_row ⟨"LD_ST_VX", 0xF0FF, 0xF018⟩ (by decide) rfl (xkk_and_F0FF ..)

theorem addI (x : RegIx) : Statement (.addI x) :=
  of_row ⟨"ADD_I", 0xF0FF, 0xF01E⟩ (by decide) rfl (xkk_and_F0FF ..)

theorem ldF (x : RegIx) : Statement (.ldF x) :=
  of_row ⟨"LD_F", 0xF0FF, 0xF029⟩ (by decide) rfl (xkk_and_F0FF ..)

theorem ldB (x : RegIx) : Statement (.ldB x) :=
  of_row ⟨"LD_B", 0xF0FF, 0xF033⟩ (by decide) rfl (xkk_and_F0FF ..)

theorem stRegs (x : RegIx) : Statement (.stRegs x) :=
  of_row ⟨"ST_REGS", 0xF0FF, 0xF055⟩ (by decide) rfl (xkk_and_F0FF ..)

theorem ldRegs (x : RegIx) : Statement (.ldRegs x) :=
  of_row ⟨"LD_REGS", 0xF0FF, 0xF065⟩ (by decide) rfl (xkk_and_F0FF ..)

theorem nopf (x : RegIx) (kk : Byte) : Statement (.nopf x kk) :=
  of_row ⟨"NOPF", 0xF000, 0xF000⟩ (by decide) rfl (xkk_and_F000 ..)

end Sys2Proof.Laws.RowMatch
end

