-- ==== Sys2Proof/Laws/Step.lean ====
section
/-! SUPPORT. What a step and a transaction can do, said once: provers cite these and do not unfold the cycle. -/

namespace Sys2Proof.Machine

@[simp] theorem fetchWord_tickTimer (s : State) : fetchWord (tickTimer s) = fetchWord s := rfl

/-- The tick as a subtraction that stops at zero (R156). -/
theorem dt_tickTimer (s : State) : (tickTimer s).dt.toNat = s.dt.toNat - 1 := by
  have := s.dt.isLt
  unfold tickTimer
  split
  · rename_i h; rw [setDt_dt, h]; rfl
  · rename_i h
    have h0 : s.dt.toNat ≠ 0 := fun e => h (BitVec.eq_of_toNat_eq e)
    rw [setDt_dt, BitVec.toNat_sub]; simp; omega

theorem tickTimer_eq (s : State) : tickTimer s = { s with dt := BitVec.ofNat 8 (s.dt.toNat - 1) } := by
  have h : (tickTimer s).dt = BitVec.ofNat 8 (s.dt.toNat - 1) := by
    have := s.dt.isLt
    apply BitVec.eq_of_toNat_eq
    rw [dt_tickTimer, BitVec.toNat_ofNat]; omega
  rw [← h]; rfl

theorem advancePc_eq (s : State) : advancePc s = { s with pc := BitVec.ofNat 12 (s.pc.toNat + 2) } := by
  have h : s.pc + 2 = BitVec.ofNat 12 (s.pc.toNat + 2) := by
    apply BitVec.eq_of_toNat_eq
    rw [BitVec.toNat_add, BitVec.toNat_ofNat]; rfl
  rw [← h]; rfl

/-- A step in a key-wait (R55 line 2). -/
theorem step_suspended {s : State} {r : RegIx} (h : s.wait = some r) : step s = .next (setLast (tickTimer s) 0x0000) := by
  simp [step, cycle, h]

/-- A step that fetches (R55 lines 3 to 7). -/
theorem step_fetch {s : State} (h : s.wait = none) :
    step s = finishStep (fetchWord s) (exec (decodeWord (fetchWord s)) (advancePc (tickTimer s))) := by
  simp [step, cycle, fetchExecute, h]

/-- Everything a step can do: it is suspended, or it runs the instruction it fetches. -/
theorem step_cases {s t : State} (h : step s = .next t) :
    (∃ r, s.wait = some r ∧ t = setLast (tickTimer s) 0x0000) ∨
    (s.wait = none ∧ ∃ u, exec (decodeWord (fetchWord s)) (advancePc (tickTimer s)) = .next u ∧
      t = setLast u (fetchWord s)) := by
  cases hw : s.wait with
  | some r =>
    rw [step_suspended hw] at h
    exact .inl ⟨r, rfl, (Host.Outcome.next.inj h).symm⟩
  | none =>
    rw [step_fetch hw] at h
    cases hu : exec (decodeWord (fetchWord s)) (advancePc (tickTimer s)) with
    | next u => rw [hu] at h; exact .inr ⟨rfl, u, rfl, (Host.Outcome.next.inj h).symm⟩
    | fault r => rw [hu] at h; cases h
    | refused r => rw [hu] at h; cases h

/-- Everything a transaction can do (R144). -/
theorem transact_cases {tr : Transaction} {s t : State} (h : transact tr s = .next t) :
    (tr = .step ∧ step s = .next t) ∨ (∃ k, tr = .keyPress k ∧ t = keyPress k s) ∨
    (∃ k, tr = .keyRelease k ∧ t = keyRelease k s) ∨ (tr = .displayAck ∧ t = displayAck s) ∨ t = s := by
  cases tr with
  | step => exact .inl ⟨rfl, h⟩
  | keyPress k => exact .inr (.inl ⟨k, rfl, (Host.Outcome.next.inj h).symm⟩)
  | keyRelease k => exact .inr (.inr (.inl ⟨k, rfl, (Host.Outcome.next.inj h).symm⟩))
  | displayAck => exact .inr (.inr (.inr (.inl ⟨rfl, (Host.Outcome.next.inj h).symm⟩)))
  | displayRead | dbgPc | dbgI | dbgV | dbgMem => exact .inr (.inr (.inr (.inr (Host.Outcome.next.inj h).symm)))

@[simp] theorem transactAll_nil (s : State) : transactAll [] s = .next s := rfl

theorem transactAll_cons {tr : Transaction} {s t : State} (h : transact tr s = .next t) (trs : List Transaction) :
    transactAll (tr :: trs) s = transactAll trs t := by
  rw [transactAll, h]

/-- A taken skip advances `PC` by 2 mod 0x1000, one not taken changes nothing (41_skip.md). -/
theorem skipIf_true (s : State) : skipIf true s = advancePc s := rfl

theorem skipIf_false (s : State) : skipIf false s = s := rfl

end Sys2Proof.Machine
end

