-- ==== Sys2Proof/Tests/Slice0.lean ====
section
/-! SUPPORT. The model's own tests. Expected values are the spec's: the worked decodings of R62 and the vectors S1 to S8,
T0 to T6 and the corner cases of the instruction rules (95_test_vectors.md and files 40 to 70), named at each test. The
last part holds, for each statement with hypotheses, a witness that meets them. -/

namespace Sys2Proof.Machine.Slice0Tests

/-! Helpers. -/

/-- The state a step leaves. -/
def after (s : State) : State :=
  match step s with
  | .next t => t
  | .fault _ => s
  | .refused _ => s

/-- The state one step on the word `w`, fetched at `PC`, leaves. -/
def run (w : Nat) (s : State) : State := after (s.withFetchWord 16 w)

/-- The state an instruction's meaning leaves. -/
def afterExec (i : Instr) (s : State) : State :=
  match exec i s with
  | .next t => t
  | .fault _ => s
  | .refused _ => s

/-- The reset state with some registers set. -/
def regs (l : List (RegIx × Byte)) : State := l.foldl (fun s p => setReg s p.1 p.2) State.reset

/-- A state with `I` set and bytes stored there. -/
def bytesAtI (a : Addr) (bs : List Byte) (s : State) : State := setI (storeBytes s a.toNat bs) a

/-- The set pixels, column by column. -/
def lit (s : State) : List (Nat × Nat) :=
  (List.finRange 64).flatMap fun x => (List.finRange 32).filterMap fun y => if pixel s x y then some (x.val, y.val) else none

/-! Ill-formed instructions are refused by the check: one for each no-op row and each sub-case list (R57). -/

theorem test_wf_sys_refuses_00E0 : Instr.wf (.sys 0x0E0) = false := by decide
theorem test_wf_sys_refuses_00EE : Instr.wf (.sys 0x0EE) = false := by decide
theorem test_wf_nop8_refuses_8xyE : Instr.wf (.nop8 1 2 0xE) = false := by decide
theorem test_wf_nope_refuses_Ex9E : Instr.wf (.nope 1 0x9E) = false := by decide
theorem test_wf_nopf_refuses_Fx65 : Instr.wf (.nopf 1 0x65) = false := by decide
theorem test_wf_accepts_noops : Instr.wf (.sys 0x1E0) = true ∧ Instr.wf (.nop8 1 2 0x8) = true ∧
    Instr.wf (.nope 1 0x9F) = true ∧ Instr.wf (.nopf 1 0x00) = true := by decide

/-! Every constructor's decoding, from a word written out bit by bit (R51, R52, R60). -/

theorem test_decode_class0 : decodeWord 0b0000000011100000 = .cls ∧ decodeWord 0b0000000011101110 = .ret ∧
    decodeWord 0b0000000111100000 = .sys 0x1E0 ∧ decodeWord 0b0000000000000000 = .sys 0x000 := by decide
theorem test_decode_jumps : decodeWord 0b0001101010111100 = .jp 0xABC ∧ decodeWord 0b0010101010111100 = .call 0xABC ∧
    decodeWord 0b1011001100000000 = .jpV0 0x300 := by decide
theorem test_decode_skips : decodeWord 0b0011000101000010 = .seImm 1 0x42 ∧ decodeWord 0b0100000101000010 = .sneImm 1 0x42 ∧
    decodeWord 0b0101101010110111 = .seReg 0xA 0xB 7 ∧ decodeWord 0b1001101010110001 = .sneReg 0xA 0xB 1 ∧
    decodeWord 0b1110001010011110 = .skp 2 ∧ decodeWord 0b1110001010100001 = .sknp 2 := by decide
theorem test_decode_immediates : decodeWord 0b0110101011111111 = .ldImm 0xA 0xFF ∧
    decodeWord 0b0111000100000010 = .addImm 1 0x02 ∧ decodeWord 0b1100000000001111 = .rnd 0 0x0F := by decide
theorem test_decode_class8 : decodeWord 0b1000000100100000 = .ldReg 1 2 ∧ decodeWord 0b1000000100100001 = .orReg 1 2 ∧
    decodeWord 0b1000000100100010 = .andReg 1 2 ∧ decodeWord 0b1000000100100011 = .xorReg 1 2 ∧
    decodeWord 0b1000101010110100 = .addReg 0xA 0xB ∧ decodeWord 0b1000000100100101 = .sub 1 2 ∧
    decodeWord 0b1000000100100110 = .shr 1 2 ∧ decodeWord 0b1000000100100111 = .subn 1 2 ∧
    decodeWord 0b1000000100101110 = .shl 1 2 ∧ decodeWord 0b1000000100101000 = .nop8 1 2 0x8 := by decide
theorem test_decode_index_draw : decodeWord 0b1010111111111111 = .ldI 0xFFF ∧ decodeWord 0b1101000000010101 = .drw 0 1 5 := by
  decide
theorem test_decode_classF : decodeWord 0b1111000100000111 = .ldVxDt 1 ∧ decodeWord 0b1111001000001010 = .ldVxK 2 ∧
    decodeWord 0b1111000000010101 = .ldDtVx 0 ∧ decodeWord 0b1111010100011000 = .ldStVx 5 ∧
    decodeWord 0b1111000100011110 = .addI 1 ∧ decodeWord 0b1111000000101001 = .ldF 0 ∧
    decodeWord 0b1111000000110011 = .ldB 0 ∧ decodeWord 0b1111001001010101 = .stRegs 2 ∧
    decodeWord 0b1111001001100101 = .ldRegs 2 := by decide
theorem test_decode_noops_EF : decodeWord 0b1110000010011111 = .nope 0 0x9F ∧ decodeWord 0b1111000001110101 = .nopf 0 0x75 := by
  decide
theorem test_decode_bytes : decodeBytes [0xF2, 0x65, 0x12] = .ok (.ldRegs 2, [0x12]) ∧
    decodeBytes [0xF2] = .error .truncated := ⟨rfl, rfl⟩
theorem test_decode_table_word : decodeTableWord 16 0xD015 = some (.drw 0 1 5) ∧ decodeTableWord 8 0xE0 = some .cls := by decide

/-! The step cycle (T0). -/

theorem test_T0_2_zero_word : (run 0x0000 State.reset).pc = 0x202 ∧ (run 0x0000 State.reset).last = 0 := by decide
theorem test_T0_3_sys_does_not_jump : (run 0x0123 State.reset).pc = 0x202 := by decide
theorem test_T0_10_pc_wraps : (run 0x6011 (setPc State.reset 0xFFE)).pc = 0x000 ∧
    reg (run 0x6011 (setPc State.reset 0xFFE)) 0 = 0x11 := by decide
theorem test_T0_11_fetch_wraps : reg (after (setPc (memWrite State.reset 0xFFF 0x61) 0xFFF)) 1 = 0xF0 ∧
    (after (setPc (memWrite State.reset 0xFFF 0x61) 0xFFF)).pc = 0x001 := by decide
theorem test_T0_12_odd_pc : reg (run 0x6207 (setPc State.reset 0x201)) 2 = 7 ∧
    (run 0x6207 (setPc State.reset 0x201)).pc = 0x203 := by decide
theorem test_T0_13_suspended : (after (setWait (setDt State.reset 5) (some 1))).dt = 4 ∧
    (after (setWait (setDt State.reset 5) (some 1))).pc = 0x200 ∧
    (after (setWait (setDt State.reset 5) (some 1))).last = 0 := by decide
theorem test_T0_5_nop8 : reg (run 0x812D (regs [(1, 5), (15, 7)])) 1 = 5 ∧ reg (run 0x812D (regs [(1, 5), (15, 7)])) 15 = 7 := by
  decide
theorem test_T0_6_nope : (run 0xE09F (setKey State.reset 0 true)).pc = 0x202 := by decide
theorem test_T0_7_nopf : (run 0xF01F (setI (regs [(0, 9)]) 0x300)).i = 0x300 := by decide

/-- T4.15: a stored word is what the next step fetches. T4.16: an instruction that overwrites itself still completes. -/
theorem test_T4_15_16_stores_into_code :
    (after (run 0xF155 (setI (regs [(0, 0x12), (1, 0x00)]) 0x202))).pc = 0x200 ∧
    (run 0xF155 (setI (regs [(0, 0x00), (1, 0xE0)]) 0x200)).last = 0xF155 ∧
    memRead (run 0xF155 (setI (regs [(0, 0x00), (1, 0xE0)]) 0x200)) 0x201 = 0xE0 := by decide

/-! Control transfer (T1). -/

theorem test_T1_1_jump : (run 0x1ABC State.reset).pc = 0xABC := by decide
theorem test_T1_3_return_on_empty : (run 0x00EE (setPc State.reset 0x400)).pc = 0x200 ∧
    (run 0x00EE (setPc State.reset 0x400)).stack = [] := by decide
theorem test_T1_4_return_pops_the_top : (run 0x00EE (push (push State.reset 0x20A) 0x30C)).pc = 0x30C ∧
    (run 0x00EE (push (push State.reset 0x20A) 0x30C)).stack = [0x20A] := by decide
theorem test_T1_5_call : (run 0x2ABC State.reset).stack = [0x202] ∧ (run 0x2ABC State.reset).pc = 0xABC := by decide
theorem test_T1_6_call_at_the_top : (run 0x2300 (setPc State.reset 0xFFE)).stack = [0x000] := by decide
theorem test_T1_9_jump_with_offset_wraps : (run 0xBFFF (regs [(0, 0xFF)])).pc = 0x0FE ∧
    reg (run 0xBFFF (regs [(0, 0xFF)])) 15 = 0 := by decide
theorem test_T1_10_offset_is_V0 : (run 0xB300 (regs [(3, 0x50)])).pc = 0x300 := by decide

/-! Skips (T2). -/

theorem test_T2_1_2_seImm : (run 0x3142 (regs [(1, 0x42)])).pc = 0x204 ∧ (run 0x3142 (regs [(1, 0x41)])).pc = 0x202 := by decide
theorem test_T2_3_4_sneImm : (run 0x4142 (regs [(1, 0x42)])).pc = 0x202 ∧ (run 0x4142 (regs [(1, 0x41)])).pc = 0x204 := by decide
theorem test_T0_8_T2_6_seReg : (run 0x5AB7 (regs [(10, 3), (11, 3)])).pc = 0x204 ∧
    (run 0x5120 (regs [(1, 7), (2, 8)])).pc = 0x202 := by decide
theorem test_T0_9_T2_9_sneReg : (run 0x9AB1 (regs [(10, 3), (11, 4)])).pc = 0x204 ∧
    (run 0x9440 (regs [(4, 9)])).pc = 0x202 := by decide
theorem test_T2_10_14_skp : (run 0xE29E (setKey (regs [(2, 7)]) 7 true)).pc = 0x204 ∧
    (run 0xE29E (setKey (regs [(2, 0x17)]) 7 true)).pc = 0x204 ∧ (run 0xE29E (regs [(2, 7)])).pc = 0x202 := by decide
theorem test_T2_12_13_sknp : (run 0xE2A1 (regs [(2, 7)])).pc = 0x204 ∧
    (run 0xE2A1 (setKey (regs [(2, 7)]) 7 true)).pc = 0x202 := by decide
theorem test_T2_15_skip_wraps : (run 0x3000 (setPc State.reset 0xFFC)).pc = 0x000 := by decide

/-! Load and arithmetic (T3, S1, S2). -/

theorem test_T3_1_ldImm : reg (run 0x6AFF State.reset) 10 = 0xFF := by decide
theorem test_T3_2_addImm_sets_no_flag : reg (run 0x7102 (regs [(1, 0xFF), (15, 5)])) 1 = 1 ∧
    reg (run 0x7102 (regs [(1, 0xFF), (15, 5)])) 15 = 5 := by decide
theorem test_T3_4_addImm_to_VF : reg (run 0x7F03 (regs [(15, 0xFE)])) 15 = 1 := by decide
theorem test_T3_5_ldReg : reg (run 0x8120 (regs [(2, 9)])) 1 = 9 := by decide
theorem test_T3_6_or : reg (run 0x8121 (regs [(1, 0x0C), (2, 0x0A), (15, 1)])) 1 = 0x0E ∧
    reg (run 0x8121 (regs [(1, 0x0C), (2, 0x0A), (15, 1)])) 15 = 1 := by decide
theorem test_T3_7_and : reg (run 0x8122 (regs [(1, 0x0C), (2, 0x0A)])) 1 = 0x08 := by decide
theorem test_T3_8_xor : reg (run 0x8123 (regs [(1, 0x0C), (2, 0x0A)])) 1 = 0x06 := by decide
theorem test_S1_add : reg (run 0x8014 (regs [(0, 0xFF), (1, 0x01)])) 0 = 0 ∧
    reg (run 0x8014 (regs [(0, 0xFF), (1, 0x01)])) 15 = 1 ∧ reg (run 0x8014 (regs [(0, 0x80), (1, 0x7F)])) 15 = 0 := by decide
theorem test_T3_10_12_add_with_VF : reg (run 0x8F14 (regs [(15, 0xF0), (1, 0x20)])) 15 = 1 ∧
    reg (run 0x80F4 (regs [(0, 0xFF), (15, 2)])) 0 = 1 ∧ reg (run 0x80F4 (regs [(0, 0xFF), (15, 2)])) 15 = 1 := by decide
theorem test_T3_15_16_sub : reg (run 0x8015 (regs [(0, 3), (1, 5)])) 0 = 0xFE ∧ reg (run 0x8015 (regs [(0, 3), (1, 5)])) 15 = 0 ∧
    reg (run 0x8015 (regs [(0, 5), (1, 5)])) 15 = 1 := by decide
theorem test_T3_17_22_sub : reg (run 0x8015 (regs [(0, 7)])) 15 = 1 ∧ reg (run 0x80F5 (regs [(0, 9), (15, 4)])) 0 = 5 ∧
    reg (run 0x80F5 (regs [(0, 9), (15, 4)])) 15 = 1 := by decide
theorem test_T3_23_24_subn : reg (run 0x8127 (regs [(1, 3), (2, 5)])) 1 = 2 ∧ reg (run 0x8127 (regs [(1, 3), (2, 5)])) 15 = 1 ∧
    reg (run 0x8127 (regs [(1, 5), (2, 3)])) 1 = 0xFE ∧ reg (run 0x8127 (regs [(1, 5), (2, 3)])) 15 = 0 := by decide
theorem test_S2_T3_28_shr : reg (run 0x8126 (regs [(1, 0xFF), (2, 0xAA)])) 1 = 0x7F ∧
    reg (run 0x8126 (regs [(1, 0xFF), (2, 0xAA)])) 2 = 0xAA ∧ reg (run 0x8F06 (regs [(15, 3)])) 15 = 1 := by decide
theorem test_S2_T3_29_shl : reg (run 0x812E (regs [(1, 0x81), (2, 0xAA)])) 1 = 0x02 ∧
    reg (run 0x812E (regs [(1, 0x81), (2, 0xAA)])) 15 = 1 ∧ reg (run 0x8F0E (regs [(15, 0x40)])) 15 = 0 := by decide
/-- T3.33: with kk = 0 the result is 0 whatever the byte drawn. -/
theorem test_T3_33_rnd_masked : reg (run 0xC000 (regs [(0, 9)])) 0 = 0 := by
  show Config.rnd 0 &&& 0#8 = 0#8
  simp
theorem test_T3_35_rnd_takes_one_draw : (run 0xC155 State.reset).draws = 1 := by decide

/-! Index register and memory (T4, S6). -/

theorem test_T4_1_ldI : (run 0xAFFF State.reset).i = 0xFFF := by decide
theorem test_T4_2_addI_wraps : (run 0xF11E (setI (regs [(1, 1)]) 0xFFF)).i = 0 ∧
    reg (run 0xF11E (setI (regs [(1, 1)]) 0xFFF)) 15 = 0 := by decide
theorem test_T4_3_ldF : (run 0xF029 (regs [(0, 0x0A)])).i = 0x032 ∧ (run 0xF029 (regs [(0, 0xFF)])).i = 0x4FB := by decide
theorem test_S6_bcd : memRead (run 0xF033 (setI (regs [(0, 234)]) 0x300)) 0x300 = 2 ∧
    memRead (run 0xF033 (setI (regs [(0, 234)]) 0x300)) 0x301 = 3 ∧
    memRead (run 0xF033 (setI (regs [(0, 234)]) 0x300)) 0x302 = 4 := by decide
theorem test_T4_8_bcd_wraps : memRead (run 0xF033 (setI (regs [(0, 234)]) 0xFFE)) 0xFFF = 3 ∧
    memRead (run 0xF033 (setI (regs [(0, 234)]) 0xFFE)) 0x000 = 4 := by decide
theorem test_T4_9_stRegs : memRead (run 0xF255 (setI (regs [(0, 1), (1, 2), (2, 3), (3, 4)]) 0x400)) 0x402 = 3 ∧
    memRead (run 0xF255 (setI (regs [(0, 1), (1, 2), (2, 3), (3, 4)]) 0x400)) 0x403 = 0 ∧
    (run 0xF255 (setI (regs [(0, 1), (1, 2), (2, 3), (3, 4)]) 0x400)).i = 0x400 := by decide
theorem test_T4_12_stRegs_wraps : memRead (run 0xF355 (setI (regs [(2, 0xC), (3, 0xD)]) 0xFFE)) 0x000 = 0xC ∧
    memRead (run 0xF355 (setI (regs [(2, 0xC), (3, 0xD)]) 0xFFE)) 0x001 = 0xD := by decide
theorem test_T4_13_ldRegs : reg (run 0xF265 (bytesAtI 0x300 [2, 3, 4, 5] (regs [(3, 0x99)]))) 2 = 4 ∧
    reg (run 0xF265 (bytesAtI 0x300 [2, 3, 4, 5] (regs [(3, 0x99)]))) 3 = 0x99 := by decide

/-! Display (T5). -/

theorem test_T5_3_9_draw_position : lit (run 0xD011 (bytesAtI 0x300 [0xFF] (regs [(0, 60)]))) =
      [(0, 0), (1, 0), (2, 0), (3, 0), (60, 0), (61, 0), (62, 0), (63, 0)] ∧
    lit (run 0xDF11 (bytesAtI 0x300 [0x80] (regs [(15, 5), (1, 2)]))) = [(5, 2)] := by decide
theorem test_T5_6_8_draw_flag : lit (run 0xD011 (flipPixel (bytesAtI 0x300 [0xC0] State.reset) 1 0)) = [(0, 0)] ∧
    reg (run 0xD011 (flipPixel (bytesAtI 0x300 [0xC0] State.reset) 1 0)) 15 = 1 ∧
    reg (run 0xD010 (regs [(15, 1)])) 15 = 0 ∧ (run 0xD010 (regs [(15, 1)])).dirty = true := by decide
/-- T5.11, both values of the open parameter. -/
theorem test_T5_11_clear : lit (clearDisplay false (flipPixel State.reset 3 4)) = [] ∧
    (clearDisplay false State.reset).dirty = false ∧ (clearDisplay true State.reset).dirty = true := by decide
theorem test_T5_11_clear_step : lit (run 0x00E0 (flipPixel State.reset 3 4)) = [] := by decide

/-! Timer, keypad and the host (T6, S7, S8). -/

theorem test_T6_1_6_set_timer : (run 0xF015 (regs [(0, 5)])).dt = 5 ∧ (run 0xF015 (setDt State.reset 9)).dt = 0 := by decide
theorem test_T6_2_4_read_timer : reg (run 0xF107 (setDt State.reset 5)) 1 = 4 ∧ (run 0xF107 (setDt State.reset 5)).dt = 4 ∧
    reg (run 0xF107 State.reset) 1 = 0 := by decide
theorem test_T6_7_sound_timer : (run 0xF518 (regs [(5, 0x33)])).pc = 0x202 ∧ reg (run 0xF518 (regs [(5, 0x33)])) 5 = 0x33 := by
  decide
theorem test_T6_8_held_key_does_not_end_the_wait : (after (run 0xF20A (setKey State.reset 3 true))).wait = some 2 ∧
    (after (run 0xF20A (setKey State.reset 3 true))).pc = 0x202 := by decide
theorem test_T6_10_12_press : reg (keyPress 3 (setWait State.reset (some 2))) 2 = 3 ∧
    (keyPress 3 (setWait State.reset (some 2))).wait = none ∧ reg (keyPress 0xA (setWait State.reset (some 15))) 15 = 0x0A := by
  decide
theorem test_T6_13_first_press_wins : reg (keyPress 6 (keyPress 4 (setWait State.reset (some 1)))) 1 = 4 ∧
    keyState (keyPress 6 (keyPress 4 (setWait State.reset (some 1)))) 6 = true := by decide
theorem test_T6_9_release : (keyRelease 3 (setWait (setKey State.reset 3 true) (some 2))).wait = some 2 ∧
    keyState (keyRelease 3 (setKey State.reset 3 true)) 3 = false := by decide
theorem test_T6_14_debug_read_clamps : dbgMem (memWrite State.reset 0xFFF 0x5A) 0x1000 = 0x5A ∧
    dbgMem (memWrite State.reset 0xFFF 0x5A) 0xFFFF = 0x5A := by decide
theorem test_T5_12_ack : (displayAck (setDirty State.reset true)).dirty = false := by decide
theorem test_S8_bound (font : Vector Byte 80) (rom : List Byte) :
    (rom.length = 3583 → (construct font rom).rejected = false) ∧
    (rom.length = 3584 → (construct font rom).rejected = true) := by
  constructor <;> intro h <;> simp [construct, h]
theorem test_construct_loads : memRead (construct (Vector.replicate 80 7) [0x12, 0x04]).state 0x201 = 0x04 ∧
    memRead (construct (Vector.replicate 80 7) [0x12, 0x04]).state 0x04F = 7 ∧
    memRead (construct (Vector.replicate 80 7) [0x12, 0x04]).state 0x050 = 0 := by decide

/-! Memory keeps its canonical form: writing what an unlisted address reads as removes the entry. -/

theorem test_canonical_write : Memory.put (Memory.put [] 0x300 5) 0x300 0 = [] ∧
    Memory.put (Memory.put [] 0x300 5) 0x2FF 6 = [(0x2FF, 6), (0x300, 5)] ∧ Memory.put [] 0x000 0xF0 = [] := by decide

/-! Witnesses: states and operands that meet the hypotheses of each statement that has any, each clause at a boundary. -/

/-- The reset state with the word `w` placed at `PC`. -/
def at200 (w : Nat) : State := State.reset.withFetchWord 16 w

theorem witness_DecodeOfEncode : Instr.wf (.nopf 15 0xFF) = true ∧ Instr.wf (.drw 15 15 15) = true := by decide
theorem witness_StepRuns : (at200 0xFFFF).wait = none ∧ Instr.wf (.nopf 15 0xFF) = true ∧
    memRead (at200 0xFFFF) (at200 0xFFFF).pc.toNat = highByte (encode (.nopf 15 0xFF)) ∧
    memRead (at200 0xFFFF) ((at200 0xFFFF).pc.toNat + 1) = lowByte (encode (.nopf 15 0xFF)) := by decide
theorem witness_KeyWaitOnlyCountsDown : (setWait State.reset (some 15)).wait = some 15 := rfl
theorem witness_NoOpWords_class0 : NoOpWord 0x0FFF ∧ Fetches (at200 0x0FFF) 0x0FFF := by
  unfold NoOpWord Fetches; decide
theorem witness_NoOpWords_class8 : NoOpWord 0x8FFF ∧ Fetches (at200 0x8FFF) 0x8FFF := by
  unfold NoOpWord Fetches; decide
theorem witness_NoOpWords_classE : NoOpWord 0xE09F ∧ Fetches (at200 0xE09F) 0xE09F := by
  unfold NoOpWord Fetches; decide
theorem witness_NoOpWords_classF : NoOpWord 0xFF64 ∧ Fetches (at200 0xFF64) 0xFF64 := by
  unfold NoOpWord Fetches; decide
theorem witness_FixedPoint_jump : (setLast (at200 0x1200) 0x1200).dt = 0 ∧
    Fetches (setLast (at200 0x1200) 0x1200) (encode (.jp (setLast (at200 0x1200) 0x1200).pc)) ∧
    (setLast (at200 0x1200) 0x1200).last = encode (.jp (setLast (at200 0x1200) 0x1200).pc) := by
  unfold Fetches; decide
theorem witness_FixedPoint_wait : (setWait State.reset (some 0)).dt = 0 ∧
    (setWait State.reset (some 0)).wait = some 0 ∧ (setWait State.reset (some 0)).last = 0x0000 := by decide
theorem witness_StepKeepsMemory : (at200 0xFF55).inv = true ∧ step (at200 0xFF55) = .next (after (at200 0xFF55)) :=
  ⟨by decide, rfl⟩
theorem witness_Reachable : Reachable (construct (Vector.replicate 80 0) [0x12, 0x00]).state := .constructed _ _
theorem witness_CanonicalMemories : Memory.wf [(0x000, 1), (0xFFF, 1)] = true := by decide
theorem witness_WritesWrap : State.reset.inv = true ∧ 0x1000 % 0x1000 = 0x000 % 0x1000 ∧ 0xFFF % 0x1000 ≠ 0x1000 % 0x1000 ∧
    0xFFF ≤ 0xFFF ∧ 0xFFF < 0x1000 := by
  decide
theorem witness_MemoryChanges : transact .step (at200 0xF055) = .next (after (at200 0xF055)) ∧
    memRead (after (at200 0xF055)) 0x000 ≠ memRead (at200 0xF055) 0x000 := ⟨rfl, by decide⟩
theorem witness_StackChanges : transact .step (at200 0x2300) = .next (after (at200 0x2300)) ∧
    (after (at200 0x2300)).stack ≠ (at200 0x2300).stack := ⟨rfl, by decide⟩
theorem witness_DisplayChanges : transact .step (at200 0xD011) = .next (after (at200 0xD011)) ∧
    pixel (after (at200 0xD011)) 0 0 ≠ pixel (at200 0xD011) 0 0 ∧
    (after (at200 0xD011)).dirty = true ∧ (at200 0xD011).dirty = false := ⟨rfl, by decide⟩
theorem witness_DirtyCleared : transact .displayAck (setDirty State.reset true) = .next (displayAck (setDirty State.reset true)) ∧
    (displayAck (setDirty State.reset true)).dirty = false ∧ (setDirty State.reset true).dirty = true := ⟨rfl, by decide⟩
theorem witness_KeysChange : transact (.keyPress 15) State.reset = .next (keyPress 15 State.reset) ∧
    keyState (keyPress 15 State.reset) 15 ≠ keyState State.reset 15 := ⟨rfl, by decide⟩
theorem witness_TimerTicks : transact .step (setDt State.reset 1) = .next (after (setDt State.reset 1)) ∧
    decodeWord (fetchWord (setDt State.reset 1)) = .sys 0 := ⟨rfl, by decide⟩
theorem witness_TimerStays : transact (.keyRelease 0) (setDt State.reset 1) = .next (keyRelease 0 (setDt State.reset 1)) ∧
    Transaction.keyRelease 0 ≠ .step := ⟨rfl, by decide⟩
theorem witness_IndexChanges : transact .step (at200 0xAFFF) = .next (after (at200 0xAFFF)) ∧
    (after (at200 0xAFFF)).i ≠ (at200 0xAFFF).i := ⟨rfl, by decide⟩
theorem witness_VfChanges : exec (.ldImm 15 1) State.reset = .next (afterExec (.ldImm 15 1) State.reset) ∧
    reg (afterExec (.ldImm 15 1) State.reset) 15 ≠ reg State.reset 15 := ⟨rfl, by decide⟩
theorem witness_KeyWaitEntered : transact .step (at200 0xFF0A) = .next (after (at200 0xFF0A)) ∧ (at200 0xFF0A).wait = none ∧
    (after (at200 0xFF0A)).wait = some 15 := ⟨rfl, by decide⟩
theorem witness_KeyWaitLeft :
    transact (.keyPress 0) (setWait State.reset (some 0)) = .next (keyPress 0 (setWait State.reset (some 0))) ∧
    (setWait State.reset (some 0)).wait = some 0 ∧ (keyPress 0 (setWait State.reset (some 0))).wait ≠ some 0 := ⟨rfl, by decide⟩
theorem witness_KeysAndDirty : exec (.ldVxK 0) State.reset = .next (afterExec (.ldVxK 0) State.reset) ∧
    ∀ x : RegIx, Instr.ldVxK 0 ≠ .skp x ∧ Instr.ldVxK 0 ≠ .sknp x := ⟨rfl, by decide⟩
theorem witness_Return : (push State.reset 0xFFF).stack = [] ++ [0xFFF] ∧ State.reset.stack = [] := by decide
theorem witness_EntryLeaves : transact .step (push (at200 0x00EE) 0xFFF) = .next (after (push (at200 0x00EE) 0xFFF)) ∧
    (after (push (at200 0x00EE) 0xFFF)).stack.length < (push (at200 0x00EE) 0xFFF).stack.length := ⟨rfl, by decide⟩
theorem witness_CallThenReturn :
    let s := storeBytes (at200 0x2FFF) 0xFFF [0x00, 0xEE]
    Fetches s (encode (.call 0xFFF)) ∧ memRead s (0xFFF#12).toNat = 0x00 ∧ memRead s ((0xFFF#12).toNat + 1) = 0xEE := by
  unfold Fetches; decide
theorem witness_CallsNest : Fetches (at200 0x2200) (encode (.call (at200 0x2200).pc)) := by unfold Fetches; decide
theorem witness_ComparingSkips : reg State.reset 15 = (0 : Byte) ∧ reg State.reset 15 ≠ (1 : Byte) ∧
    reg State.reset 0 = reg State.reset 15 ∧ reg (regs [(0, 1)]) 0 ≠ reg (regs [(0, 1)]) 15 := by decide
theorem witness_KeySkips : (15 : KeyIx).val = (reg (regs [(0, 0xFF)]) 0).toNat % 16 ∧
    keyState (setKey (regs [(0, 0xFF)]) 15 true) 15 = true ∧ keyState (regs [(0, 0xFF)]) 15 = false := by decide
theorem witness_AddRegisters : (14 : RegIx) ≠ 15 ∧
    (reg (regs [(0, 0xFF), (1, 1)]) 0).toNat + (reg (regs [(0, 0xFF), (1, 1)]) 1).toNat > 255 ∧
    ¬ (reg (regs [(0, 0xFF)]) 0).toNat + (reg (regs [(0, 0xFF)]) 1).toNat > 255 := by decide
theorem witness_Subtractions : (reg State.reset 0).toNat ≥ (reg State.reset 1).toNat ∧
    (reg (regs [(1, 1)]) 0).toNat < (reg (regs [(1, 1)]) 1).toNat := by decide
theorem witness_Random : (0x7F : Byte).getLsbD 7 = false := by decide
theorem witness_Stores : (setI State.reset 0xFFF).inv = true ∧ (15 : RegIx) ≤ 15 ∧
    ∀ j : Nat, j < 16 → 0x00F % 0x1000 ≠ (indexBase (setI State.reset 0xFFF) + j) % 0x1000 := by decide
theorem witness_StoredBytesAreFetched :
    let s := setI (setPc (regs [(0, 0x12)]) 0xFFF) 0xFFF
    s.inv = true ∧ 1 ≤ (1 : RegIx).val ∧ s.pc = s.i ∧ exec (.stRegs 1) s = .next (afterExec (.stRegs 1) s) :=
  ⟨by decide, by decide, by decide, rfl⟩
/-- A sprite pixel at the right edge wraps to column 0; the pixel is clear, then set. -/
theorem witness_Draw_covered : SpriteCovers (bytesAtI 0xFFF [0x01] State.reset) 57 31 1 0 31 ∧
    pixel (bytesAtI 0xFFF [0x01] State.reset) 0 31 = false ∧
    SpriteCovers (flipPixel (bytesAtI 0xFFF [0x01] State.reset) 0 31) 57 31 1 0 31 ∧
    pixel (flipPixel (bytesAtI 0xFFF [0x01] State.reset) 0 31) 0 31 = true :=
  ⟨⟨0, 7, by decide⟩, by decide, ⟨0, 7, by decide⟩, by decide⟩
theorem witness_Draw_uncovered (px : Col) (py : Row) : ¬ SpriteCovers State.reset 0 0 0 px py := by
  rintro ⟨r, c, hr, -⟩; omega
theorem witness_DrawingTwice :
    exec (.drw 0 0 1) State.reset = .next (afterExec (.drw 0 0 1) State.reset) ∧
    reg (afterExec (.drw 0 0 1) State.reset) 1 = reg State.reset 0 ∧
    exec (.drw 1 1 1) (afterExec (.drw 0 0 1) State.reset) =
      .next (afterExec (.drw 1 1 1) (afterExec (.drw 0 0 1) State.reset)) := ⟨rfl, by decide, rfl⟩
theorem witness_TimerSetThenRead :
    let s := storeBytes (at200 0xF015) 0x202 [0xFF, 0x07]
    Fetches s (encode (.ldDtVx 0)) ∧ step s = .next (after s) ∧ Fetches (after s) (encode (.ldVxDt 15)) ∧
    step (after s) = .next (after (after s)) := by
  refine ⟨?_, rfl, ?_, rfl⟩ <;> unfold Fetches <;> decide
theorem witness_KeyPress : State.reset.wait = none ∧ (setWait State.reset (some 15)).wait = some 15 ∧ (0 : KeyIx) ≠ 15 := by
  decide
theorem witness_PressResumes : (setWait (at200 0x1200) (some 0)).wait = some 0 ∧ Instr.wf (.jp 0x200) = true ∧
    fetchWord (setWait (at200 0x1200) (some 0)) = encode (.jp 0x200) := by decide
theorem witness_KeyRelease : keyState State.reset 15 = false ∧ (0 : KeyIx) ≠ 15 := by decide
theorem witness_Construction : (3583 < 3584 ∧ 3584 ≤ 3584) ∧ (79 < 80 ∧ 80 ≤ 80 ∧ 0x1FF < 0x200 ∧ 0x200 ≤ 0x200 ∧ 0xFFF < 0x1000) ∧
    (List.replicate 3583 (0xAB : Byte)).length < 3584 ∧ 3584 ≤ (List.replicate 3584 (0xAB : Byte)).length :=
  ⟨by decide, by decide, by rw [List.length_replicate]; decide, by rw [List.length_replicate]⟩
theorem witness_DefaultFont : ∃ font : Vector Byte 80, font.toList = defaultFont := ⟨⟨defaultFont.toArray, rfl⟩, rfl⟩

end Sys2Proof.Machine.Slice0Tests
end

section
/-! PROOFS. The shared operations as one record update each, and that every instruction answers a next state. -/

namespace Sys2Proof.Machine

/-- 00EE on any stack: the top, or 0x200 when there is none, and the rest stays (R70). -/
theorem execRet_eq (s : State) : execRet s = .next (setPc (dropTop s) ((stackTop s).getD 0x200)) := by
  unfold execRet
  cases h : stackTop s with
  | some a => rfl
  | none =>
    have hs : s.stack = [] := List.getLast?_eq_none_iff.1 h
    have hd : dropTop s = s := by unfold dropTop; rw [hs, List.dropLast_nil, ← hs]
    rw [hd]; rfl

/-- A skip writes `PC` and nothing else (41_skip.md). -/
theorem skipIf_eq (c : Bool) (s : State) : skipIf c s = { s with pc := (skipIf c s).pc } := by
  cases c <;> rfl

/-- Drawing writes registers, pixels and `DIRTY`, which it sets (R121). -/
theorem drawSprite_eq (x0 y0 : Byte) (n : Nat) (s : State) : drawSprite x0 y0 n s =
    { s with v := (drawSprite x0 y0 n s).v, px := (drawSprite x0 y0 n s).px, dirty := true } := by
  unfold drawSprite; rw [drawRows_eq]; rfl

/-- No instruction ends in a fault or a refusal (R140). -/
theorem exec_total (i : Instr) (s : State) : ∃ t, exec i s = .next t := by
  cases i with
  | ret => exact ⟨_, execRet_eq s⟩
  | _ => exact ⟨_, rfl⟩

end Sys2Proof.Machine
end

section
/-! PROOFS. Memory in its canonical form (R15, R24): which entries it lists, that reading determines it, and that every
instruction, step and transaction keeps the form. -/

namespace Sys2Proof.Machine

/-- A canonical memory lists an entry exactly when the byte read there is not the one an unlisted address reads as. -/
theorem Memory.mem_iff_get {m : Memory} (hm : Memory.wf m = true) (c : Host.Cell) :
    c ∈ m ↔ c.1 < 0x1000 ∧ Memory.get m c.1 = c.2 ∧ c.2 ≠ unlistedByte c.1 := by
  rw [Memory.wf_iff] at hm
  induction m with
  | nil => simp only [List.not_mem_nil, Memory.get, false_iff]; rintro ⟨-, he, hne⟩; exact hne he.symm
  | cons d rest ih =>
    obtain ⟨hsorted, hentry⟩ := hm
    obtain ⟨hd, hrest⟩ := List.pairwise_cons.1 hsorted
    have ih := ih ⟨hrest, fun e he => hentry e (List.mem_cons_of_mem _ he)⟩
    obtain ⟨hlt, hne⟩ := hentry d List.mem_cons_self
    rw [List.mem_cons, Memory.get]
    by_cases hk : d.1 = c.1
    · have hc : c ∉ rest := fun hc => by have := hd c hc; omega
      rw [if_pos hk]
      constructor
      · rintro (rfl | h)
        · exact ⟨hlt, rfl, hne⟩
        · exact absurd h hc
      · rintro ⟨-, hb, -⟩; exact .inl (Prod.ext hk.symm hb.symm)
    · have hcd : c ≠ d := fun e => hk (by rw [e])
      simp [hcd, hk, ih]

theorem inv_of_mem_eq {s t : State} (h : t.mem = s.mem) (hs : s.inv = true) : t.inv = true := by
  rw [State.inv, h]; exact hs

theorem inv_exec {i : Instr} {s t : State} (hs : s.inv = true) (h : exec i s = .next t) : t.inv = true := by
  cases i with
  | ldB x | stRegs x => cases h; exact inv_storeBytes hs _ _
  | ret => rw [exec, execRet_eq] at h; cases h; exact hs
  | seImm | sneImm | seReg | sneReg | skp | sknp =>
    cases h; exact inv_of_mem_eq (congrArg State.mem (skipIf_eq _ _)) hs
  | drw x y n => cases h; exact inv_of_mem_eq (congrArg State.mem (drawSprite_eq ..)) hs
  | ldRegs x => cases h; exact inv_of_mem_eq (congrArg State.mem (loadRegs_eq ..)) hs
  | _ => cases h; exact hs

theorem inv_step {s t : State} (hs : s.inv = true) (h : step s = .next t) : t.inv = true := by
  rcases step_cases h with ⟨r, -, rfl⟩ | ⟨-, u, hu, rfl⟩
  · exact hs
  · have hu := inv_exec (s := advancePc (tickTimer s)) hs hu
    exact hu

theorem inv_keyPress {s : State} (hs : s.inv = true) (k : KeyIx) : (keyPress k s).inv = true := by
  unfold keyPress; split <;> exact hs

theorem inv_transact {tr : Transaction} {s t : State} (hs : s.inv = true) (h : transact tr s = .next t) :
    t.inv = true := by
  rcases transact_cases h with ⟨-, h⟩ | ⟨k, -, rfl⟩ | ⟨k, -, rfl⟩ | ⟨-, rfl⟩ | rfl
  · exact inv_step hs h
  · exact inv_keyPress hs k
  all_goals exact hs

theorem inv_reset : State.reset.inv = true := Memory.wf_nil

theorem inv_construct (font : Vector Byte 80) (rom : List Byte) : (construct font rom).state.inv = true := by
  have hfont := inv_storeBytes inv_reset 0x000 font.toList
  unfold construct
  dsimp only
  split
  · exact inv_storeBytes hfont _ _
  · exact hfont

/-- Settles O13: only Fx33 and Fx55 write memory, and a write keeps the canonical form. -/
theorem stepKeepsMemoryCanonical : Obligations.StepKeepsMemoryCanonical :=
  fun _ _ hs h => inv_step hs h

/-- Settles O15, by induction on how the state was reached: construction has the form and every transaction keeps it. -/
theorem reachableMemoryIsCanonical : Obligations.ReachableMemoryIsCanonical := by
  intro s hs
  induction hs with
  | constructed font rom => exact inv_construct font rom
  | transacted tr _ ht ih => exact inv_transact ih ht

/-- Settles O16: what memory reads as says which entries it lists, and a strictly rising list is determined by its
entries. -/
theorem canonicalMemoriesAreExtensional : Obligations.CanonicalMemoriesAreExtensional := by
  intro m k hm hk hread
  have hentries : ∀ c, c ∈ m ↔ c ∈ k := fun c => by
    rw [Memory.mem_iff_get hm, Memory.mem_iff_get hk]
    exact and_congr_right fun hc => by rw [hread c.1 hc]
  exact ((Memory.wf_iff m).1 hm).1.eq_of_mem_iff ((Memory.wf_iff k).1 hk).1 hentries

/-- Settles O14: reset memory lists nothing. -/
theorem resetMemoryIsCanonical : Obligations.ResetMemoryIsCanonical := inv_reset

end Sys2Proof.Machine
end

section
/-! PROOFS. The frame of every instruction and of every transaction, said once (10_state.md): which registers and which
other pieces of state each may write. -/

namespace Sys2Proof.Machine

/-- The general registers an instruction may write (R11, R179; D7, log 7). -/
def writtenRegs : Instr → Set RegIx
  | .ldImm x _ | .addImm x _ | .ldReg x _ | .orReg x _ | .andReg x _ | .xorReg x _ | .rnd x _ | .ldVxDt x => {x}
  | .addReg x _ | .sub x _ | .shr x _ | .subn x _ | .shl x _ => {x, vf}
  | .drw _ _ _ => {vf}
  | .ldRegs x => {r | r ≤ x}
  | _ => ∅

/-- The other pieces of state an instruction may write, once `PC` has been advanced (10_state.md). -/
def writtenParts : Instr → Set Part
  | .cls | .drw _ _ _ => {.display, .dirty}
  | .ret | .call _ => {.pc, .stack}
  | .jp _ | .jpV0 _ | .seImm _ _ | .sneImm _ _ | .seReg _ _ _ | .sneReg _ _ _ | .skp _ | .sknp _ => {.pc}
  | .rnd _ _ => {.draws}
  | .ldVxK _ => {.keyWait}
  | .ldDtVx _ => {.timer}
  | .ldI _ | .addI _ | .ldF _ => {.index}
  | .ldB _ | .stRegs _ => {.memory}
  | _ => ∅

/-! Frames compose, and every operation of the model has one. -/

theorem Part.Same.refl (s : State) (p : Part) : p.Same s s := by
  cases p <;> simp [Part.Same]

theorem Part.Same.trans {s t u : State} {p : Part} (h : p.Same s t) (h' : p.Same t u) : p.Same s u := by
  cases p <;> simp_all [Part.Same]

theorem OnlyChanges.refl (s : State) : OnlyChanges ∅ ∅ s s :=
  ⟨fun _ _ => rfl, fun p _ => Part.Same.refl s p⟩

theorem OnlyChanges.trans {R R' : Set RegIx} {P P' : Set Part} {s t u : State} (h : OnlyChanges R P s t)
    (h' : OnlyChanges R' P' t u) : OnlyChanges (R ∪ R') (P ∪ P') s u where
  registers r hr := (h'.registers r fun m => hr (.inr m)).trans (h.registers r fun m => hr (.inl m))
  rest p hp := (h.rest p fun m => hp (.inl m)).trans (h'.rest p fun m => hp (.inr m))

theorem OnlyChanges.mono {R R' : Set RegIx} {P P' : Set Part} {s t : State} (h : OnlyChanges R P s t)
    (hR : R ⊆ R') (hP : P ⊆ P') : OnlyChanges R' P' s t :=
  ⟨fun r hr => h.registers r fun m => hr (hR m), fun p hp => h.rest p fun m => hp (hP m)⟩

/-- Writing registers leaves every other piece of state. -/
theorem same_of_v (s : State) (v : Vector Byte 16) (p : Part) : p.Same s { s with v := v } := by
  cases p <;> simp [Part.Same, memRead, pixel, keyState]

theorem onlyChanges_setReg (s : State) (r : RegIx) (b : Byte) : OnlyChanges {r} ∅ s (setReg s r b) where
  registers q hq := (reg_setReg s r q b).trans (if_neg hq)
  rest p _ := same_of_v s _ p

theorem onlyChanges_writeResultFlag (s : State) (x : RegIx) (result flag : Byte) :
    OnlyChanges {x, vf} ∅ s (writeResultFlag s x result flag) :=
  ((onlyChanges_setReg s x result).trans (onlyChanges_setReg _ vf flag)).mono subset_rfl (Set.union_empty _).subset

theorem onlyChanges_loadRegs (s : State) (a : Nat) (x : RegIx) :
    OnlyChanges {r | r ≤ x} ∅ s (loadRegs s a (x.val + 1)) where
  registers r hr := by rw [reg_loadRegs _ _ _ x.isLt, if_neg fun h => hr (Nat.lt_succ_iff.1 h)]
  rest p _ := by rw [loadRegs_eq]; exact same_of_v s _ p

theorem onlyChanges_storeBytes (s : State) (a : Nat) (bs : List Byte) : OnlyChanges ∅ {.memory} s (storeBytes s a bs) := by
  rw [storeBytes_eq]
  exact ⟨fun _ _ => rfl, fun p hp => by cases p <;> simp_all [Part.Same, pixel, keyState]⟩

theorem onlyChanges_drawSprite (x0 y0 : Byte) (n : Fin 16) (s : State) :
    OnlyChanges {vf} {.display, .dirty} s (drawSprite x0 y0 n.val s) where
  registers r hr := by
    have hr : r ≠ vf := hr
    simp [drawSprite, reg_drawRows _ _ _ _ n.isLt.le, hr]
  rest p hp := by rw [drawSprite_eq]; cases p <;> simp_all [Part.Same, memRead, keyState]

theorem onlyChanges_clearDisplay (b : Bool) (s : State) : OnlyChanges ∅ {.display, .dirty} s (clearDisplay b s) :=
  ⟨fun _ _ => rfl, fun p hp => by cases p <;> simp_all [Part.Same, clearDisplay]⟩

theorem onlyChanges_setPc (s : State) (a : Addr) : OnlyChanges ∅ {.pc} s (setPc s a) :=
  ⟨fun _ _ => rfl, fun p hp => by cases p <;> simp_all [Part.Same]⟩

theorem onlyChanges_skipIf (c : Bool) (s : State) : OnlyChanges ∅ {.pc} s (skipIf c s) := by
  rw [skipIf_eq]; exact onlyChanges_setPc s _

theorem onlyChanges_push (s : State) (a : Addr) : OnlyChanges ∅ {.stack} s (push s a) :=
  ⟨fun _ _ => rfl, fun p hp => by cases p <;> simp_all [Part.Same]⟩

theorem onlyChanges_dropTop (s : State) : OnlyChanges ∅ {.stack} s (dropTop s) :=
  ⟨fun _ _ => rfl, fun p hp => by cases p <;> simp_all [Part.Same]⟩

theorem onlyChanges_setI (s : State) (a : Addr) : OnlyChanges ∅ {.index} s (setI s a) :=
  ⟨fun _ _ => rfl, fun p hp => by cases p <;> simp_all [Part.Same]⟩

theorem onlyChanges_setDt (s : State) (b : Byte) : OnlyChanges ∅ {.timer} s (setDt s b) :=
  ⟨fun _ _ => rfl, fun p hp => by cases p <;> simp_all [Part.Same]⟩

theorem onlyChanges_setWait (s : State) (w : Option RegIx) : OnlyChanges ∅ {.keyWait} s (setWait s w) :=
  ⟨fun _ _ => rfl, fun p hp => by cases p <;> simp_all [Part.Same]⟩

theorem onlyChanges_setKey (s : State) (k : KeyIx) (b : Bool) : OnlyChanges ∅ {.keys} s (setKey s k b) :=
  ⟨fun _ _ => rfl, fun p hp => by cases p <;> simp_all [Part.Same]⟩

theorem onlyChanges_setDirty (s : State) (b : Bool) : OnlyChanges ∅ {.dirty} s (setDirty s b) :=
  ⟨fun _ _ => rfl, fun p hp => by cases p <;> simp_all [Part.Same]⟩

theorem onlyChanges_setLast (s : State) (w : Word) : OnlyChanges ∅ {.lastWord} s (setLast s w) :=
  ⟨fun _ _ => rfl, fun p hp => by cases p <;> simp_all [Part.Same]⟩

theorem onlyChanges_nextDraw (s : State) : OnlyChanges ∅ {.draws} s (nextDraw s) :=
  ⟨fun _ _ => rfl, fun p hp => by cases p <;> simp_all [Part.Same]⟩

/-- The frame of every instruction: it writes no register and no piece of state but those listed for it. -/
theorem exec_onlyChanges {i : Instr} {s t : State} (h : exec i s = .next t) :
    OnlyChanges (writtenRegs i) (writtenParts i) s t := by
  cases i with
  | sys | nop8 | nope | nopf | ldStVx => cases h; exact OnlyChanges.refl s
  | cls => cases h; exact onlyChanges_clearDisplay _ s
  | ret =>
    rw [exec, execRet_eq] at h
    cases h
    exact ((onlyChanges_dropTop s).trans (onlyChanges_setPc _ _)).mono (by simp) (by simp [writtenParts])
  | call nnn =>
    cases h
    exact ((onlyChanges_push s _).trans (onlyChanges_setPc _ nnn)).mono (by simp) (by simp [writtenParts])
  | jp | jpV0 => cases h; exact onlyChanges_setPc s _
  | seImm | sneImm | seReg | sneReg | skp | sknp => cases h; exact onlyChanges_skipIf _ s
  | ldImm | addImm | ldReg | orReg | andReg | xorReg | ldVxDt => cases h; exact onlyChanges_setReg s _ _
  | addReg | sub | shr | subn | shl => cases h; exact onlyChanges_writeResultFlag s _ _ _
  | rnd x kk =>
    cases h
    exact ((onlyChanges_setReg s x _).trans (onlyChanges_nextDraw _)).mono (by simp [writtenRegs]) (by simp [writtenParts])
  | drw x y n => cases h; exact onlyChanges_drawSprite _ _ n s
  | ldVxK => cases h; exact onlyChanges_setWait s _
  | ldDtVx => cases h; exact onlyChanges_setDt s _
  | ldI | addI | ldF => cases h; exact onlyChanges_setI s _
  | ldB | stRegs => cases h; exact onlyChanges_storeBytes s _ _
  | ldRegs x => cases h; exact onlyChanges_loadRegs s _ x

/-- The frame of a step that fetches (R55 lines 3 to 7): the instruction's own, the timer, `PC` and `LAST`. -/
theorem step_onlyChanges_of_fetch {s t : State} (hw : s.wait = none) (h : step s = .next t) :
    OnlyChanges (writtenRegs (decodeWord (fetchWord s)))
      (writtenParts (decodeWord (fetchWord s)) ∪ {.timer, .pc, .lastWord}) s t := by
  rcases step_cases h with ⟨r, hr, -⟩ | ⟨-, u, hu, rfl⟩
  · rw [hw] at hr; cases hr
  · have hentry : OnlyChanges (∅ ∪ ∅) ({.timer} ∪ {.pc}) s (advancePc (tickTimer s)) :=
      (onlyChanges_setDt s _).trans (onlyChanges_setPc (tickTimer s) _)
    refine ((hentry.trans (exec_onlyChanges hu)).trans (onlyChanges_setLast u _)).mono (by simp) ?_
    rintro p (((hp | hp) | hp) | hp) <;> simp_all

/-- The frame of a step in a key-wait (R55 line 2). -/
theorem step_onlyChanges_of_wait {s t : State} (hw : s.wait ≠ none) (h : step s = .next t) :
    OnlyChanges ∅ {.timer, .lastWord} s t := by
  rcases step_cases h with ⟨r, -, rfl⟩ | ⟨hr, -⟩
  · exact ((onlyChanges_setDt s _).trans (onlyChanges_setLast (tickTimer s) _)).mono (by simp) subset_rfl
  · exact absurd hr hw

/-- The frame of a press (R145): its key, and a pending key-wait with the register it names. -/
theorem keyPress_onlyChanges (k : KeyIx) (s : State) :
    OnlyChanges {r | s.wait = some r} {.keys, .keyWait} s (keyPress k s) := by
  have hkey := onlyChanges_setKey s k true
  unfold keyPress
  split
  next r hr =>
    exact ((hkey.trans (onlyChanges_setReg _ r _)).trans (onlyChanges_setWait _ none)).mono (by simp [hr])
      (by simp [Set.pair_comm])
  next => exact hkey.mono (by simp) (by simp)

/-- Which transaction can change a piece of state (R144): a step the written parts of the instruction it fetches, every
step the timer, `PC` and `LAST`; a press the keys and the key-wait, a release the keys, an acknowledge `DIRTY`. -/
theorem transact_changes {tr : Transaction} {s t : State} {p : Part} (h : transact tr s = .next t) (hp : ¬ p.Same s t) :
    (tr = .step ∧ s.wait = none ∧ p ∈ writtenParts (decodeWord (fetchWord s))) ∨
    (tr = .step ∧ p ∈ ({.timer, .pc, .lastWord} : Set Part)) ∨
    (∃ k, tr = .keyPress k ∧ p ∈ ({.keys, .keyWait} : Set Part)) ∨ (∃ k, tr = .keyRelease k ∧ p = .keys) ∨
    (tr = .displayAck ∧ p = .dirty) := by
  have written {R : Set RegIx} {P : Set Part} (hf : OnlyChanges R P s t) : p ∈ P := by_contra fun hn => hp (hf.rest p hn)
  rcases transact_cases h with ⟨rfl, hstep⟩ | ⟨k, rfl, rfl⟩ | ⟨k, rfl, rfl⟩ | ⟨rfl, rfl⟩ | rfl
  · by_cases hw : s.wait = none
    · rcases written (step_onlyChanges_of_fetch hw hstep) with hi | hc
      · exact .inl ⟨rfl, hw, hi⟩
      · exact .inr (.inl ⟨rfl, hc⟩)
    · exact .inr (.inl ⟨rfl, (written (step_onlyChanges_of_wait hw hstep)).imp_right .inr⟩)
  · exact .inr (.inr (.inl ⟨k, rfl, written (keyPress_onlyChanges k s)⟩))
  · exact .inr (.inr (.inr (.inl ⟨k, rfl, written (onlyChanges_setKey s k false)⟩)))
  · exact .inr (.inr (.inr (.inr ⟨rfl, written (onlyChanges_setDirty s false)⟩)))
  · exact absurd (Part.Same.refl _ p) hp

/-- A piece of state that neither the host nor the cycle itself writes changes only in a step that runs a writer of it. -/
theorem step_of_change {tr : Transaction} {s t : State} {p : Part} (h : transact tr s = .next t) (hp : ¬ p.Same s t)
    (hother : p ∉ ({.timer, .pc, .lastWord, .keys, .keyWait, .dirty} : Set Part)) :
    tr = .step ∧ s.wait = none ∧ p ∈ writtenParts (decodeWord (fetchWord s)) := by
  rcases transact_changes h hp with hstep | ⟨-, hc⟩ | ⟨k, -, hc⟩ | ⟨k, -, hc⟩ | ⟨-, hc⟩
  · exact hstep
  all_goals exact absurd hc (by simp_all)

end Sys2Proof.Machine
end

section
/-! PROOFS. Who writes the stack, the display, the keys, `I` and VF: each safety statement is read off the frame of a
transaction. -/

namespace Sys2Proof.Machine

/-- Settles O19: only 2nnn and 00EE list the stack as written. -/
theorem stackChangesOnlyByCallAndReturn : Obligations.StackChangesOnlyByCallAndReturn := by
  intro tr s t h hne
  have hwriter : ∀ i, Part.stack ∈ writtenParts i → i = .ret ∨ ∃ nnn, i = .call nnn := by
    intro i; cases i <;> simp [writtenParts]
  obtain ⟨htr, hw, hp⟩ := step_of_change (p := .stack) h hne (by simp)
  exact ⟨htr, hw, hwriter _ hp⟩

/-- Settles O23: only Annn, Fx1E and Fx29 list `I` as written. -/
theorem indexChangesOnlyByItsThreeWriters : Obligations.IndexChangesOnlyByItsThreeWriters := by
  intro tr s t h hne
  have hwriter : ∀ i, Part.index ∈ writtenParts i → (∃ nnn, i = .ldI nnn) ∨ ∃ x, i = .addI x ∨ i = .ldF x := by
    intro i; cases i <;> simp [writtenParts]
  obtain ⟨htr, hw, hp⟩ := step_of_change (p := .index) h hne (by simp)
  exact ⟨htr, hw, hwriter _ hp⟩

theorem keyState_keyPress (k j : KeyIx) (s : State) :
    keyState (keyPress k s) j = if j = k then true else keyState s j := by
  unfold keyPress; split <;> simp

theorem keys_notMem_writtenParts (i : Instr) : Part.keys ∉ writtenParts i := by
  cases i <;> simp [writtenParts]

/-- Settles O21: no instruction writes a key; a press and a release write their own. -/
theorem keysChangeOnlyByTheHost : Obligations.KeysChangeOnlyByTheHost := by
  intro tr s t k h hne
  rcases transact_changes (p := .keys) h fun hsame => hne (hsame k) with
    ⟨-, -, hp⟩ | ⟨-, hp⟩ | ⟨j, rfl, -⟩ | ⟨j, rfl, -⟩ | ⟨-, hp⟩
  · exact absurd hp (keys_notMem_writtenParts _)
  · simp at hp
  · cases h
    have hj : k = j := by by_contra hj; exact hne (by rw [keyState_keyPress, if_neg hj])
    exact .inl ⟨by rw [hj], by rw [keyState_keyPress, if_pos hj]⟩
  · cases h
    have hj : k = j := by by_contra hj; exact hne (by rw [keyRelease, keyState_setKey, if_neg hj])
    exact .inr ⟨by rw [hj], by rw [keyRelease, keyState_setKey, if_pos hj]⟩
  · cases hp

/-- What an instruction makes of `DIRTY` (R17, R120, R121): no value but `DIRTY`'s own is read for it. -/
def dirtyAfter (d : Bool) : Instr → Bool
  | .cls => d || Config.clsMarksDirty
  | .drw _ _ _ => true
  | _ => d

theorem dirtyAfter_true (i : Instr) : dirtyAfter true i = true := by
  cases i <;> simp [dirtyAfter]

theorem dirty_exec {i : Instr} {s t : State} (h : exec i s = .next t) : t.dirty = dirtyAfter s.dirty i := by
  cases i with
  | cls | drw => cases h; rfl
  | _ => exact (exec_onlyChanges h).rest .dirty (by simp [writtenParts])

/-- Only an acknowledge clears `DIRTY` (R148). -/
theorem dirty_transact {tr : Transaction} {s t : State} (h : transact tr s = .next t) (hs : s.dirty = true)
    (hack : tr ≠ .displayAck) : t.dirty = true := by
  by_contra hn
  rcases transact_changes (p := .dirty) h fun hsame => hn (Eq.trans hsame hs) with
    ⟨rfl, hw, -⟩ | ⟨-, hp⟩ | ⟨k, -, hp⟩ | ⟨k, -, hp⟩ | ⟨rfl, -⟩
  · rcases step_cases h with ⟨r, hr, -⟩ | ⟨-, u, hu, rfl⟩
    · rw [hw] at hr; cases hr
    · refine hn ((dirty_exec hu).trans ?_)
      rw [advancePc_dirty, tickTimer_dirty, hs, dirtyAfter_true]
  · simp at hp
  · simp at hp
  · cases hp
  · exact hack rfl

/-- Settles O20: only 00E0 and Dxyn list the display or `DIRTY` as written, and neither clears `DIRTY`. -/
theorem displayChangesOnlyByClearAndDraw : Obligations.DisplayChangesOnlyByClearAndDraw := by
  intro tr s t h
  have hwriter : ∀ i, Part.display ∈ writtenParts i ∨ Part.dirty ∈ writtenParts i →
      i = .cls ∨ ∃ x y n, i = .drw x y n := by
    intro i; cases i <;> simp [writtenParts]
  refine ⟨?_, fun ht hs => ?_⟩
  · rintro (⟨x, y, hne⟩ | ⟨ht, hs⟩)
    · obtain ⟨htr, hw, hp⟩ := step_of_change (p := .display) h (fun hsame => hne (hsame x y)) (by simp)
      exact ⟨htr, hw, hwriter _ (.inl hp)⟩
    · rcases transact_changes (p := .dirty) h fun hsame => by simp [Part.Same, ht, hs] at hsame with
        ⟨htr, hw, hp⟩ | ⟨-, hp⟩ | ⟨k, -, hp⟩ | ⟨k, -, hp⟩ | ⟨rfl, -⟩
      · exact ⟨htr, hw, hwriter _ (.inr hp)⟩
      · simp at hp
      · simp at hp
      · cases hp
      · cases h; cases ht
  · by_contra hack
    rw [dirty_transact h hs hack] at ht
    cases ht

/-- Settles O24: VF is listed as written by the flag writers, and by the others only when it is their destination. -/
theorem vfChangesOnlyByFlagWritersOrAsDestination : Obligations.VfChangesOnlyByFlagWritersOrAsDestination := by
  intro i s t h hne
  have hvf : (15 : RegIx) ∈ writtenRegs i := by_contra fun hn => hne ((exec_onlyChanges h).registers 15 hn)
  cases i with
  | addReg x y | sub x y | shr x y | subn x y | shl x y => exact .inl ⟨x, y, by simp⟩
  | drw x y n => exact .inr (.inl ⟨x, y, n, rfl⟩)
  | ldImm x kk | addImm x kk | rnd x kk =>
    obtain rfl : 15 = x := hvf
    exact .inr (.inr (.inl ⟨kk, by simp⟩))
  | ldReg x y | orReg x y | andReg x y | xorReg x y =>
    obtain rfl : 15 = x := hvf
    exact .inr (.inr (.inr (.inl ⟨y, by simp⟩)))
  | ldVxDt x =>
    obtain rfl : 15 = x := hvf
    simp
  | ldRegs x =>
    obtain rfl : x = 15 := le_antisymm (Fin.le_last x) hvf
    simp
  | _ => exact absurd hvf (Set.notMem_empty _)

end Sys2Proof.Machine
end

section
/-! PROOFS. What no instruction reads: `LAST` (R22), `DIRTY` (R17), and, but for Ex9E and ExA1, the keypad (R19). Each
operation commutes with writing other values there. -/

namespace Sys2Proof.Machine

/-- `s` with other values of the three pieces of state that hardly anything reads. -/
def withUnread (keys : Vector Bool 16) (d : Bool) (w : Word) (s : State) : State :=
  { s with key := keys, dirty := d, last := w }

section
variable (keys : Vector Bool 16) (d : Bool) (w : Word)

theorem storeBytes_withUnread (s : State) (a : Nat) (bs : List Byte) :
    storeBytes (withUnread keys d w s) a bs = withUnread keys d w (storeBytes s a bs) := by
  induction bs generalizing s a with
  | nil => rfl
  | cons b bs ih => exact ih (memWrite s a b) (a + 1)

theorem loadRegs_withUnread (s : State) (a n : Nat) :
    loadRegs (withUnread keys d w s) a n = withUnread keys d w (loadRegs s a n) := by
  induction n with
  | zero => rfl
  | succ n ih => rw [loadRegs, ih]; rfl

theorem skipIf_withUnread (c : Bool) (s : State) :
    skipIf c (withUnread keys d w s) = withUnread keys d w (skipIf c s) := by
  cases c <;> rfl

theorem drawPixel_withUnread (s : State) (x : Col) (y : Row) :
    drawPixel (withUnread keys d w s) x y = withUnread keys d w (drawPixel s x y) := by
  have hpixel : pixel (withUnread keys d w s) x y = pixel s x y := rfl
  unfold drawPixel
  rw [hpixel]
  split <;> rfl

theorem drawCols_withUnread (x0 y0 b : Byte) (r : Nat) (s : State) (c : Nat) :
    drawCols x0 y0 b r (withUnread keys d w s) c = withUnread keys d w (drawCols x0 y0 b r s c) := by
  induction c with
  | zero => rfl
  | succ c ih =>
    rw [drawCols, drawCols, ih]
    split
    · exact drawPixel_withUnread ..
    · rfl

theorem drawRows_withUnread (x0 y0 : Byte) (s : State) (n : Nat) :
    drawRows x0 y0 (withUnread keys d w s) n = withUnread keys d w (drawRows x0 y0 s n) := by
  induction n with
  | zero => rfl
  | succ n ih => rw [drawRows, ih]; exact drawCols_withUnread ..

theorem drawSprite_withUnread (x0 y0 : Byte) (n : Nat) (s : State) :
    drawSprite x0 y0 n (withUnread keys d w s) = withUnread keys true w (drawSprite x0 y0 n s) :=
  congrArg (setDirty · true) (drawRows_withUnread keys d w x0 y0 (setReg s vf 0) n)

/-- An instruction runs the same whatever `DIRTY` and `LAST` are, and whatever the keys are unless it is Ex9E or ExA1. -/
theorem exec_withUnread {i : Instr} {s t : State} (h : exec i s = .next t)
    (hkeys : keys = s.key ∨ ∀ x, i ≠ .skp x ∧ i ≠ .sknp x) :
    exec i (withUnread keys d w s) = .next (withUnread keys (dirtyAfter d i) w t) := by
  cases i with
  | skp x | sknp x =>
    obtain rfl : keys = s.key := hkeys.resolve_right fun hx => by simpa using hx x
    cases h
    exact congrArg _ (skipIf_withUnread ..)
  | seImm | sneImm | seReg | sneReg => cases h; exact congrArg _ (skipIf_withUnread ..)
  | ret =>
    rw [exec, execRet_eq] at h ⊢
    cases h; rfl
  | drw x y n => cases h; exact congrArg _ (drawSprite_withUnread ..)
  | ldB | stRegs => cases h; exact congrArg _ (storeBytes_withUnread ..)
  | ldRegs => cases h; exact congrArg _ (loadRegs_withUnread ..)
  | _ => cases h; rfl

end

theorem key_exec {i : Instr} {s t : State} (h : exec i s = .next t) : t.key = s.key :=
  Vector.ext fun k hk => (exec_onlyChanges h).rest .keys (keys_notMem_writtenParts i) ⟨k, hk⟩

theorem last_exec {i : Instr} {s t : State} (h : exec i s = .next t) : t.last = s.last :=
  (exec_onlyChanges h).rest .lastWord (by cases i <;> simp [writtenParts])

/-- Settles O26: with other keys only the keys of the result differ, with another `DIRTY` only `DIRTY`. -/
theorem keysAndDirtyAreHardlyRead : Obligations.KeysAndDirtyAreHardlyRead := by
  intro i s t h
  refine ⟨fun keys hi => ?_, fun d => ⟨dirtyAfter d i, ?_⟩⟩
  · calc exec i { s with key := keys }
        = .next (withUnread keys (dirtyAfter s.dirty i) s.last t) := exec_withUnread keys s.dirty s.last h (.inr hi)
      _ = .next { t with key := keys } := by rw [← dirty_exec h, ← last_exec h]; rfl
  · calc exec i { s with dirty := d }
        = .next (withUnread s.key (dirtyAfter d i) s.last t) := exec_withUnread s.key d s.last h (.inl rfl)
      _ = .next { t with dirty := dirtyAfter d i } := by rw [← key_exec h, ← last_exec h]; rfl

theorem exec_setLast {i : Instr} {s t : State} (h : exec i s = .next t) (w : Word) :
    exec i (setLast s w) = .next (setLast t w) :=
  calc exec i (setLast s w)
      = .next (withUnread s.key (dirtyAfter s.dirty i) w t) := exec_withUnread s.key s.dirty w h (.inl rfl)
    _ = .next (setLast t w) := by rw [← dirty_exec h, ← key_exec h]; rfl

/-- Settles O11: the step latches its own word over whatever `LAST` was, and nothing before reads it. -/
theorem lastIsNeverRead : Obligations.LastIsNeverRead := by
  intro s w
  show step (setLast s w) = step s
  cases hw : s.wait with
  | some r => rw [step_suspended (s := setLast s w) hw, step_suspended hw]; rfl
  | none =>
    obtain ⟨t, ht⟩ := exec_total (decodeWord (fetchWord s)) (advancePc (tickTimer s))
    have hlast : exec (decodeWord (fetchWord s)) (advancePc (tickTimer (setLast s w))) = .next (setLast t w) :=
      exec_setLast ht w
    have hfetch : fetchWord (setLast s w) = fetchWord s := rfl
    rw [step_fetch (s := setLast s w) hw, step_fetch hw, hfetch, hlast, ht]
    rfl

end Sys2Proof.Machine
end

section
/-! PROOFS. A call of its own address, stepped any number of times (R14, R72). -/

namespace Sys2Proof.Machine

@[simp] theorem decodeWord_encode_call (nnn : Addr) : decodeWord (encode (.call nnn)) = .call nnn := by
  simp [decodeWord, encode]

/-- A step that fetches a call (R55, R72). -/
theorem step_call {s : State} {nnn : Addr} (h : Fetches s (encode (.call nnn))) :
    step s = .next (setLast (setPc (push (advancePc (tickTimer s)) (s.pc + 2)) nnn) (encode (.call nnn))) := by
  obtain ⟨hwait, hword⟩ := h
  rw [step_fetch hwait, hword, decodeWord_encode_call]
  rfl

/-- A step of an instruction that calls its own address pushes the address after it and fetches the same call next. -/
theorem step_selfCall {s : State} (h : Fetches s (encode (.call s.pc))) :
    ∃ t, step s = .next t ∧ Fetches t (encode (.call t.pc)) ∧ t.pc = s.pc ∧
      t.stack = s.stack ++ [BitVec.ofNat 12 (s.pc.toNat + 2)] := by
  have hpc : s.pc + 2 = BitVec.ofNat 12 (s.pc.toNat + 2) := congrArg State.pc (advancePc_eq s)
  exact ⟨_, step_call h, h, rfl, by rw [← hpc]; rfl⟩

/-- Settles O32, by induction on the number of steps: each leaves the next one the same call to make. -/
theorem callsNestWithoutBound : Obligations.CallsNestWithoutBound := by
  intro n
  induction n with
  | zero => intro s _; exact ⟨s, rfl, rfl, by simp⟩
  | succ n ih =>
    intro s hs
    obtain ⟨u, hstep, hu, hupc, hustack⟩ := step_selfCall hs
    obtain ⟨t, hrun, htpc, htstack⟩ := ih u hu
    refine ⟨t, (transactAll_cons (tr := .step) hstep _).trans hrun, htpc.trans hupc, ?_⟩
    rw [htstack, hustack, hupc, List.append_assoc, List.singleton_append, List.replicate_succ]

end Sys2Proof.Machine
end

section
/-! PROOFS. Memory at the interface: reading what was written and the debug read (R32, R150), who writes memory (R36, R38),
and fetching what was stored (R42). -/

namespace Sys2Proof.Machine

theorem reply_dbgMem (s : State) (a : Nat) : reply (.dbgMem a) s s = .byte (memRead s (min a 0xFFF)) := rfl

/-- Settles O17: a write is read back at its own effective address only, and the debug read clamps. -/
theorem accessesWrapAndDebugReadsClamp : Obligations.AccessesWrapAndDebugReadsClamp := by
  intro s a c b hs
  refine ⟨fun hsame => ?_, fun hother => ?_, fun hle => ?_, fun hgt => ?_, rfl⟩
  · exact (memRead_memWrite hs a c b).trans (if_pos hsame)
  · exact (memRead_memWrite hs a c b).trans (if_neg hother)
  · rw [reply_dbgMem, Nat.min_eq_left hle]
  · rw [reply_dbgMem, Nat.min_eq_right hgt.le]

/-- Settles O18: only Fx33 and Fx55 list memory as written. -/
theorem memoryChangesOnlyByStores : Obligations.MemoryChangesOnlyByStores := by
  rintro tr s t h ⟨a, hne⟩
  have hwriter : ∀ i, Part.memory ∈ writtenParts i → ∃ x, i = .ldB x ∨ i = .stRegs x := by
    intro i; cases i <;> simp [writtenParts]
  obtain ⟨htr, hw, hp⟩ := step_of_change (p := .memory) h (fun hsame => hne (hsame a)) (by simp)
  exact ⟨htr, hw, hwriter _ hp⟩

/-- A run of at least two bytes stored at `PC` starts with the word fetched next, also when it wraps at 0xFFF (R32, R33). -/
theorem fetchWord_storeBytes_pc {s : State} (hs : s.inv = true) {bs : List Byte} (hlen : bs.length ≤ 0x1000)
    (h2 : 1 < bs.length) : fetchWord (storeBytes s s.pc.toNat bs) = wordOfBytes bs[0] bs[1] := by
  have hpc : (storeBytes s s.pc.toNat bs).pc = s.pc := by rw [storeBytes_eq]
  have hhigh := memRead_storeBytes_same hs s.pc.toNat bs hlen 0 (by omega)
  have hlow := memRead_storeBytes_same hs s.pc.toNat bs hlen 1 h2
  rw [Nat.add_zero] at hhigh
  rw [fetchWord, hpc, hhigh, hlow]

/-- Settles O48: with `PC` = `I` the registers are stored where the next word is fetched. -/
theorem storedBytesAreFetched : Obligations.StoredBytesAreFetched := by
  intro x s t hs hx hpc h
  have hlen := length_regsUpTo s x
  have hbase : indexBase s = s.pc.toNat := by rw [indexBase, hpc]
  cases h
  rw [hbase, fetchWord_storeBytes_pc hs (by omega) (by omega)]
  exact congrArg₂ wordOfBytes (getElem_regsUpTo s x 0 (by simp [hlen])) (getElem_regsUpTo s x 1 (by simp [hlen]; omega))

end Sys2Proof.Machine
end

section
/-! PROOFS. The fields of a word (R51): each is the word masked and shifted, and a word is put together from its class and
the fields of any of its three shapes. -/

namespace Sys2Proof

theorem word_of_nnn {w : Word} {c : Nibble} (hc : wordClass w = c) : c ++ fieldNnn w = w := by
  apply BitVec.eq_of_toNat_eq
  rw [← hc, append_nnn_toNat, wordClass_toNat, fieldNnn_toNat]; omega

theorem word_of_xkk {w : Word} {c : Nibble} {k : Byte} (hc : wordClass w = c) (hk : fieldKk w = k) :
    c ++ regBits (fieldX w) ++ k = w := by
  apply BitVec.eq_of_toNat_eq
  rw [← hc, ← hk, append_xkk_toNat, wordClass_toNat, regBits_toNat, fieldX_val, fieldKk_toNat]; omega

theorem word_of_xyn {w : Word} {c n : Nibble} (hc : wordClass w = c) (hn : fieldN w = n) :
    c ++ regBits (fieldX w) ++ regBits (fieldY w) ++ n = w := by
  apply BitVec.eq_of_toNat_eq
  rw [← hc, ← hn, append_xyn_toNat, wordClass_toNat, regBits_toNat, regBits_toNat, fieldX_val, fieldY_val, fieldN_toNat]
  omega

/-- `kk` = `{y, n}` (R51). -/
theorem fieldKk_eq_yn (w : Word) : fieldKk w = regBits (fieldY w) ++ fieldN w := by
  symm
  exact BitVec.extractLsb'_append_extractLsb'_eq_extractLsb' (x := w) (start₂ := 4) (len₂ := 4) (start₁ := 0) rfl

/-- `nnn` = `{x, kk}` (R51). -/
theorem fieldNnn_eq_xkk (w : Word) : fieldNnn w = regBits (fieldX w) ++ fieldKk w := by
  symm
  exact BitVec.extractLsb'_append_extractLsb'_eq_extractLsb' (x := w) (start₂ := 8) (len₂ := 4) (start₁ := 0) rfl

/-- `nnn` = `{x, y, n}` (R51). -/
theorem fieldNnn_eq_xyn (w : Word) : fieldNnn w = regBits (fieldX w) ++ regBits (fieldY w) ++ fieldN w := by
  rw [fieldNnn_eq_xkk, fieldKk_eq_yn]
  exact (BitVec.append_assoc (x₁ := regBits (fieldX w)) (x₂ := regBits (fieldY w)) (x₃ := fieldN w)).symm

/-- Under a mask of the `m` lowest bits a word is a remainder. -/
theorem and_mask_toNat (w : Word) {mask : Word} {m : Nat} (h : mask.toNat = 2 ^ m - 1) :
    (w &&& mask).toNat = w.toNat % 2 ^ m := by
  rw [BitVec.toNat_and, h, Nat.and_two_pow_sub_one_eq_mod]

/-- Under a mask of `m` bits from bit `k` up, shifted down by `k`, a word is the remainder of a quotient. -/
theorem and_mask_shift_toNat (w : Word) {mask : Word} {k m : Nat} (h : (mask >>> k).toNat = 2 ^ m - 1) :
    ((w &&& mask) >>> k).toNat = w.toNat / 2 ^ k % 2 ^ m := by
  rw [BitVec.ushiftRight_and_distrib, and_mask_toNat _ h, BitVec.toNat_ushiftRight, Nat.shiftRight_eq_div_pow]

/-- Settles O2: each field and each masked word is the same quotient and remainder of the word's value. -/
theorem fieldsAreTheMaskedBits : Obligations.FieldsAreTheMaskedBits := by
  intro w
  refine ⟨?_, ?_, ?_, ?_, ?_, ?_, fieldKk_eq_yn w, fieldNnn_eq_xyn w, fieldNnn_eq_xkk w⟩
  · have hlt := w.isLt
    rw [wordClass_toNat, and_mask_shift_toNat (k := 12) (m := 4) w rfl]
    omega
  · exact (fieldX_val w).trans (and_mask_shift_toNat (k := 8) (m := 4) w rfl).symm
  · exact (fieldY_val w).trans (and_mask_shift_toNat (k := 4) (m := 4) w rfl).symm
  · exact (fieldN_toNat w).trans (and_mask_toNat (m := 4) w rfl).symm
  · exact (fieldKk_toNat w).trans (and_mask_toNat (m := 8) w rfl).symm
  · exact (fieldNnn_toNat w).trans (and_mask_toNat (m := 12) w rfl).symm

end Sys2Proof
end

section
/-! PROOFS. Decoding and encoding undo each other (R50 to R59): the decoder on the no-op words of each class, on the word of
every well-formed instruction, and the encoder on what every word decodes to. -/

namespace Sys2Proof

/-! The no-op words of each class that has sub-cases (R57). -/

theorem decodeWord_sys {w : Word} (hc : wordClass w = 0x0#4) (hw : fieldNnn w ∉ class0SubCases) :
    decodeWord w = .sys (fieldNnn w) := by
  have hcls : w ≠ 0x00E0#16 := by rintro rfl; exact hw (by decide)
  have hret : w ≠ 0x00EE#16 := by rintro rfl; exact hw (by decide)
  simp [decodeWord, hc, decodeClass0, hcls, hret]

theorem decodeWord_nop8 {w : Word} (hc : wordClass w = 0x8#4) (hn : fieldN w ∉ class8SubCases) :
    decodeWord w = .nop8 (fieldX w) (fieldY w) (fieldN w) := by
  simp only [decodeWord, hc, decodeClass8]
  split <;> simp_all [class8SubCases]

theorem decodeWord_nope {w : Word} (hc : wordClass w = 0xE#4) (hk : fieldKk w ∉ classESubCases) :
    decodeWord w = .nope (fieldX w) (fieldKk w) := by
  simp only [decodeWord, hc, decodeClassE]
  split <;> simp_all [classESubCases]

theorem decodeWord_nopf {w : Word} (hc : wordClass w = 0xF#4) (hk : fieldKk w ∉ classFSubCases) :
    decodeWord w = .nopf (fieldX w) (fieldKk w) := by
  simp only [decodeWord, hc, decodeClassF]
  split <;> simp_all [classFSubCases]

/-- A well-formed instruction is what its word decodes to. The no-op rows are where well-formedness is needed: their word
holds no sub-case of its class. -/
theorem decodeWord_encode {i : Instr} (h : i.wf = true) : decodeWord (encode i) = i := by
  cases i with
  | cls | ret => decide
  | sys nnn =>
    have hn : nnn ∉ class0SubCases := by simpa [Instr.wf] using h
    simpa [encode] using decodeWord_sys (w := encode (.sys nnn)) (by simp [encode]) (by simpa [encode] using hn)
  | nop8 x y n =>
    have hn : n ∉ class8SubCases := by simpa [Instr.wf] using h
    simpa [encode] using decodeWord_nop8 (w := encode (.nop8 x y n)) (by simp [encode]) (by simpa [encode] using hn)
  | nope x kk =>
    have hk : kk ∉ classESubCases := by simpa [Instr.wf] using h
    simpa [encode] using decodeWord_nope (w := encode (.nope x kk)) (by simp [encode]) (by simpa [encode] using hk)
  | nopf x kk =>
    have hk : kk ∉ classFSubCases := by simpa [Instr.wf] using h
    simpa [encode] using decodeWord_nopf (w := encode (.nopf x kk)) (by simp [encode]) (by simpa [encode] using hk)
  | ldReg | orReg | andReg | xorReg | addReg | sub | shr | subn | shl => simp [decodeWord, encode, decodeClass8]
  | skp | sknp => simp [decodeWord, encode, decodeClassE]
  | ldVxDt | ldVxK | ldDtVx | ldStVx | addI | ldF | ldB | stRegs | ldRegs => simp [decodeWord, encode, decodeClassF]
  | drw x y n => simp [decodeWord, encode]; rfl
  | _ => simp [decodeWord, encode]

/-- Settles O4: the two bytes make the instruction's word again, and that word decodes to the instruction. -/
theorem decodeOfEncodeIsTheInstruction : Obligations.DecodeOfEncodeIsTheInstruction := by
  intro i rest h
  calc decodeBytes (encodeBytes i ++ rest)
      = .ok (decodeWord (wordOfBytes (highByte (encode i)) (lowByte (encode i))), rest) := rfl
    _ = .ok (i, rest) := by rw [wordOfBytes_highByte_lowByte, decodeWord_encode h]

/-! Encoding what a word decodes to puts the word together again from its class and its fields. -/

theorem encode_decodeClass0 {w : Word} (hc : wordClass w = 0x0#4) : encode (decodeClass0 w) = w := by
  unfold decodeClass0
  split_ifs with hcls hret
  · exact hcls.symm
  · exact hret.symm
  · exact word_of_nnn hc

theorem encode_decodeClass8 {w : Word} (hc : wordClass w = 0x8#4) : encode (decodeClass8 w) = w := by
  unfold decodeClass8
  split
  case h_10 => exact word_of_xyn hc rfl
  all_goals exact word_of_xyn hc ‹_›

theorem encode_decodeClassE {w : Word} (hc : wordClass w = 0xE#4) : encode (decodeClassE w) = w := by
  unfold decodeClassE
  split
  case h_3 => exact word_of_xkk hc rfl
  all_goals exact word_of_xkk hc ‹_›

theorem encode_decodeClassF {w : Word} (hc : wordClass w = 0xF#4) : encode (decodeClassF w) = w := by
  unfold decodeClassF
  split
  case h_10 => exact word_of_xkk hc rfl
  all_goals exact word_of_xkk hc ‹_›

/-- Settles O5, class by class: each row of the encoder is the class and the fields the decoder took the operands from. -/
theorem encodeOfDecodeIsTheWord : Obligations.EncodeOfDecodeIsTheWord := by
  intro w
  unfold decodeWord
  split
  case h_1 hc => exact encode_decodeClass0 hc
  case h_9 hc => exact encode_decodeClass8 hc
  case h_15 hc => exact encode_decodeClassE hc
  case h_16 =>
    have hc : wordClass w = 0xF#4 := by simp only [imp_false] at *; bv_omega
    exact encode_decodeClassF hc
  case h_2 hc | h_3 hc | h_11 hc | h_12 hc => exact word_of_nnn hc
  case h_4 hc | h_5 hc | h_7 hc | h_8 hc | h_13 hc => exact word_of_xkk hc rfl
  case h_6 hc | h_10 hc | h_14 hc => exact word_of_xyn hc rfl

/-! A word decodes to a well-formed instruction: a no-op row is reached only past every sub-case of its class. -/

theorem wf_decodeClass0 {w : Word} (hc : wordClass w = 0x0#4) : (decodeClass0 w).wf = true := by
  have hw := word_of_nnn hc
  unfold decodeClass0
  split_ifs with hcls hret
  · rfl
  · rfl
  · have hE0 : fieldNnn w ≠ 0x0E0#12 := fun h => hcls (by rw [← hw, h]; rfl)
    have hEE : fieldNnn w ≠ 0x0EE#12 := fun h => hret (by rw [← hw, h]; rfl)
    simp [Instr.wf, class0SubCases, hE0, hEE]

theorem wf_decodeClass8 (w : Word) : (decodeClass8 w).wf = true := by
  unfold decodeClass8
  split
  case h_10 => simp_all [Instr.wf, class8SubCases]
  all_goals rfl

theorem wf_decodeClassE (w : Word) : (decodeClassE w).wf = true := by
  unfold decodeClassE
  split
  case h_3 => simp_all [Instr.wf, classESubCases]
  all_goals rfl

theorem wf_decodeClassF (w : Word) : (decodeClassF w).wf = true := by
  unfold decodeClassF
  split
  case h_10 => simp_all [Instr.wf, classFSubCases]
  all_goals rfl

theorem wf_decodeWord (w : Word) : (decodeWord w).wf = true := by
  unfold decodeWord
  split
  case h_1 hc => exact wf_decodeClass0 hc
  case h_9 => exact wf_decodeClass8 w
  case h_15 => exact wf_decodeClassE w
  case h_16 => exact wf_decodeClassF w
  all_goals rfl

/-- Settles O3: two bytes are a word, and every word decodes. -/
theorem everyWordDecodes : Obligations.EveryWordDecodes :=
  fun _ _ _ => ⟨_, rfl, wf_decodeWord _⟩

/-- Settles O1: the decoder evaluated on the four words. -/
theorem workedDecodings : Obligations.WorkedDecodings := by
  unfold Obligations.WorkedDecodings; decide

end Sys2Proof
end

section
/-! PROOFS. The opcode map of R60: among rows that one word can match an earlier one has more mask bits than a later
one, and the later one is a no-op row whose sub-case the earlier one is. -/

namespace Sys2Proof

/-- Every instruction's word matches the row of its name. -/
theorem Laws.RowMatch.statement : ∀ i : Instr, Statement i
  | .cls => cls | .ret => ret | .sys nnn => sys nnn | .jp nnn => jp nnn | .call nnn => call nnn
  | .seImm x kk => seImm x kk | .sneImm x kk => sneImm x kk | .seReg x y n => seReg x y n
  | .ldImm x kk => ldImm x kk | .addImm x kk => addImm x kk
  | .ldReg x y => ldReg x y | .orReg x y => orReg x y | .andReg x y => andReg x y | .xorReg x y => xorReg x y
  | .addReg x y => addReg x y | .sub x y => sub x y | .shr x y => shr x y | .subn x y => subn x y | .shl x y => shl x y
  | .nop8 x y n => nop8 x y n | .sneReg x y n => sneReg x y n | .ldI nnn => ldI nnn | .jpV0 nnn => jpV0 nnn
  | .rnd x kk => rnd x kk | .drw x y n => drw x y n | .skp x => skp x | .sknp x => sknp x | .nope x kk => nope x kk
  | .ldVxDt x => ldVxDt x | .ldVxK x => ldVxK x | .ldDtVx x => ldDtVx x | .ldStVx x => ldStVx x | .addI x => addI x
  | .ldF x => ldF x | .ldB x => ldB x | .stRegs x => stRegs x | .ldRegs x => ldRegs x | .nopf x kk => nopf x kk

/-- Two rows that one word can match: their patterns agree where both masks have bits. -/
def OpcodeRow.Overlaps (r r' : OpcodeRow) : Prop := r.pattern &&& r'.mask = r'.pattern &&& r.mask

theorem OpcodeRow.matches_iff (r : OpcodeRow) (w : Word) : r.matches w = true ↔ w &&& r.mask = r.pattern := by
  simp [OpcodeRow.matches]

theorem OpcodeRow.overlaps_of_matches {r r' : OpcodeRow} {w : Word} (h : r.matches w = true) (h' : r'.matches w = true) :
    r.Overlaps r' := by
  rw [OpcodeRow.matches_iff] at h h'
  rw [OpcodeRow.Overlaps, ← h, ← h', BitVec.and_assoc, BitVec.and_assoc, BitVec.and_comm r.mask]

/-- A word that matches holds the pattern's value in every field the mask covers whole. -/
theorem OpcodeRow.field_mem_of_matches {r : OpcodeRow} {w : Word} (h : r.matches w = true) {start len : Nat}
    (hmask : r.mask.extractLsb' start len = BitVec.allOnes len) {values : List (BitVec len)}
    (hmem : r.pattern.extractLsb' start len ∈ values) : w.extractLsb' start len ∈ values := by
  rw [OpcodeRow.matches_iff] at h
  rwa [← h, BitVec.extractLsb'_and, hmask, BitVec.and_allOnes] at hmem

/-- The map lists overlapping rows by falling number of mask bits. -/
theorem opcodeTable_ordered : opcodeTable.Pairwise fun r r' => r.Overlaps r' → maskBits r'.mask < maskBits r.mask := by
  unfold OpcodeRow.Overlaps; decide

/-- The only rows with a more specific row beside them are the no-op rows, and what is more specific is a sub-case (R57). -/
theorem subCase_of_more_maskBits : ∀ r ∈ opcodeTable, ∀ r' ∈ opcodeTable,
    r.Overlaps r' → maskBits r'.mask < maskBits r.mask →
    (r'.mnemonic = "SYS" ∧ fieldNnn r.mask = BitVec.allOnes 12 ∧ fieldNnn r.pattern ∈ class0SubCases) ∨
    (r'.mnemonic = "NOP8" ∧ fieldN r.mask = BitVec.allOnes 4 ∧ fieldN r.pattern ∈ class8SubCases) ∨
    (r'.mnemonic = "NOPE" ∧ fieldKk r.mask = BitVec.allOnes 8 ∧ fieldKk r.pattern ∈ classESubCases) ∨
    (r'.mnemonic = "NOPF" ∧ fieldKk r.mask = BitVec.allOnes 8 ∧ fieldKk r.pattern ∈ classFSubCases) := by
  unfold OpcodeRow.Overlaps; decide

/-- The word of a well-formed no-op instruction holds no sub-case of its class (R57, R60). -/
theorem noSubCase_of_wf {i : Instr} (h : i.wf = true) :
    (i.mnemonic = "SYS" → fieldNnn (encode i) ∉ class0SubCases) ∧
    (i.mnemonic = "NOP8" → fieldN (encode i) ∉ class8SubCases) ∧
    (i.mnemonic = "NOPE" → fieldKk (encode i) ∉ classESubCases) ∧
    (i.mnemonic = "NOPF" → fieldKk (encode i) ∉ classFSubCases) := by
  cases i with
  | sys | nop8 | nope | nopf => simpa [Instr.mnemonic, encode, Instr.wf] using h
  | _ => simp [Instr.mnemonic]

/-- No row that the word of a well-formed instruction matches has more mask bits than the instruction's own row. -/
theorem maskBits_le_of_matches {i : Instr} (hi : i.wf = true) {row r : OpcodeRow} (hrow : row ∈ opcodeTable)
    (hname : row.mnemonic = i.mnemonic) (hmatch : row.matches (encode i) = true) (hr : r ∈ opcodeTable)
    (hrmatch : r.matches (encode i) = true) : maskBits r.mask ≤ maskBits row.mask := by
  by_contra hlt
  obtain ⟨h0, h8, hE, hF⟩ := noSubCase_of_wf hi
  rw [← hname] at h0 h8 hE hF
  rcases subCase_of_more_maskBits r hr row hrow (OpcodeRow.overlaps_of_matches hrmatch hmatch) (not_le.1 hlt) with
    ⟨hn, hmask, hsub⟩ | ⟨hn, hmask, hsub⟩ | ⟨hn, hmask, hsub⟩ | ⟨hn, hmask, hsub⟩
  · exact h0 hn (OpcodeRow.field_mem_of_matches hrmatch hmask hsub)
  · exact h8 hn (OpcodeRow.field_mem_of_matches hrmatch hmask hsub)
  · exact hE hn (OpcodeRow.field_mem_of_matches hrmatch hmask hsub)
  · exact hF hn (OpcodeRow.field_mem_of_matches hrmatch hmask hsub)

/-- Settles O6: the row of the decoded instruction's name matches; an earlier match would have more mask bits than it, a
later one has fewer. -/
theorem decodePicksTheMostSpecificRow : Obligations.DecodePicksTheMostSpecificRow := by
  intro w
  have hword : encode (decodeWord w) = w := encodeOfDecodeIsTheWord w
  obtain ⟨row, hrow, hname, hmatch⟩ := Laws.RowMatch.statement (decodeWord w)
  have hmost : ∀ r ∈ opcodeTable, r.matches w = true → maskBits r.mask ≤ maskBits row.mask := fun r hr hrmatch =>
    maskBits_le_of_matches (wf_decodeWord w) hrow hname hmatch hr (hword.symm ▸ hrmatch)
  rw [hword] at hmatch
  obtain ⟨before, after, htable⟩ := List.append_of_mem hrow
  have hordered := opcodeTable_ordered
  rw [htable] at hordered
  obtain ⟨-, htail, hbefore⟩ := List.pairwise_append.1 hordered
  have hfirst : ∀ r ∈ before, r.matches w ≠ true := fun r hr hrmatch =>
    (hbefore r hr row List.mem_cons_self (OpcodeRow.overlaps_of_matches hrmatch hmatch)).not_ge
      (hmost r (htable ▸ List.mem_append_left _ hr) hrmatch)
  refine ⟨row, hrow, hmatch, hname, ?_, fun other hother homatch hne => ?_⟩
  · exact List.find?_eq_some_iff_append.2 ⟨hmatch, before, after, htable, fun r hr => by simpa using hfirst r hr⟩
  · rw [htable, List.mem_append, List.mem_cons] at hother
    rcases hother with ho | ho | ho
    · exact absurd homatch (hfirst other ho)
    · exact absurd ho hne
    · exact (List.pairwise_cons.1 htail).1 other ho (OpcodeRow.overlaps_of_matches hmatch homatch)

end Sys2Proof
end

section
/-! PROOFS. The step on a fetched word (R55): on the word of an instruction it runs that instruction, on a no-op word it
changes nothing more. -/

namespace Sys2Proof.Machine

/-- The state an instruction's meaning runs on: the timer ticked and `PC` advanced. -/
theorem advancePc_tickTimer_eq (s : State) : advancePc (tickTimer s) =
    { s with dt := BitVec.ofNat 8 (s.dt.toNat - 1), pc := BitVec.ofNat 12 (s.pc.toNat + 2) } := by
  rw [advancePc_eq, tickTimer_eq]

/-- Settles O7: the bytes at `PC` make the instruction's word, which decodes to it, and every instruction answers a state. -/
theorem stepRunsTheDecodedInstruction : Obligations.StepRunsTheDecodedInstruction := by
  intro s i hwait hi hhigh hlow
  have hfetch : fetchWord s = encode i := by rw [fetchWord, hhigh, hlow, wordOfBytes_highByte_lowByte]
  obtain ⟨t, ht⟩ := exec_total i (advancePc (tickTimer s))
  refine ⟨t, advancePc_tickTimer_eq s ▸ ht, ?_⟩
  rw [step_fetch hwait, hfetch, decodeWord_encode hi, ht]
  rfl

/-- Settles O35: each of the five meanings is the identity. -/
theorem noOpsAndSoundTimerChangeNothing : Obligations.NoOpsAndSoundTimerChangeNothing :=
  fun _ => ⟨fun _ => rfl, fun _ _ _ => rfl, fun _ _ => rfl, fun _ _ => rfl, fun _ => rfl⟩

/-- A word that R57 lists decodes to an instruction that changes nothing. -/
theorem exec_noOpWord {w : Word} (h : NoOpWord w) (s : State) : exec (decodeWord w) s = .next s := by
  obtain ⟨hsys, hnop8, hnope, hnopf, -⟩ := noOpsAndSoundTimerChangeNothing s
  have hclass {c : Nibble} (hc : w.toNat / 0x1000 = c.toNat) : wordClass w = c :=
    BitVec.eq_of_toNat_eq ((wordClass_toNat w).trans hc)
  rcases h with ⟨hlt, hE0, hEE⟩ | ⟨hc, hn⟩ | ⟨hc, hk⟩ | ⟨hc, hk⟩
  · have hsub : (fieldNnn w).toNat ∉ class0SubCases.map BitVec.toNat := by
      rw [fieldNnn_toNat, Nat.mod_eq_of_lt hlt]
      simp [class0SubCases, hE0, hEE]
    rw [decodeWord_sys (hclass (Nat.div_eq_of_lt hlt)) (mt List.mem_map_of_mem hsub), hsys]
  · have hother : ∀ n ∈ [0x8, 0x9, 0xA, 0xB, 0xC, 0xD, 0xF], n ∉ class8SubCases.map BitVec.toNat := by decide
    have hsub := hother _ hn
    rw [← fieldN_toNat] at hsub
    rw [decodeWord_nop8 (hclass hc) (mt List.mem_map_of_mem hsub), hnop8]
  · have hsub : (fieldKk w).toNat ∉ classESubCases.map BitVec.toNat := by rw [fieldKk_toNat]; exact hk
    rw [decodeWord_nope (hclass hc) (mt List.mem_map_of_mem hsub), hnope]
  · have hsub : (fieldKk w).toNat ∉ classFSubCases.map BitVec.toNat := by rw [fieldKk_toNat]; exact hk
    rw [decodeWord_nopf (hclass hc) (mt List.mem_map_of_mem hsub), hnopf]

/-- Settles O10: the step of a no-op word is the tick, the advance and the latch. -/
theorem noOpWordsOnlyAdvance : Obligations.NoOpWordsOnlyAdvance := by
  rintro s w hw ⟨hwait, hfetch⟩
  rw [step_fetch hwait, hfetch, exec_noOpWord hw, advancePc_tickTimer_eq]
  rfl

end Sys2Proof.Machine
end

section
/-! PROOFS. Control transfer (40_control.md): the jumps, the call, the return from any stack, and a call whose target is a
return. -/

namespace Sys2Proof.Machine

/-- Settles O27: the class nibble 1 stands above the address, and the meaning writes `PC` alone. -/
theorem jumpSetsPc : Obligations.JumpSetsPc :=
  fun nnn s => ⟨append_nnn_toNat 0x1#4 nnn, _, rfl, rfl, onlyChanges_setPc s nnn⟩

/-- Settles O28: V0 is zero-extended to the width of the address, where the sum wraps. -/
theorem jumpWithOffsetAddsV0 : Obligations.JumpWithOffsetAddsV0 := by
  intro nnn s
  refine ⟨_, rfl, ?_, onlyChanges_setPc s _⟩
  have hzext : (zext12 (reg s 0)).toNat = (reg s 0).toNat := BitVec.toNat_setWidth_of_le (by decide)
  rw [setPc_pc, BitVec.toNat_add, hzext]

/-- Settles O29: the call's meaning is a push and a write of `PC`, and its frame lists both. -/
theorem callPushesPcAndJumps : Obligations.CallPushesPcAndJumps :=
  fun nnn _ => ⟨_, rfl, rfl, rfl, exec_onlyChanges (i := .call nnn) rfl⟩

/-- On a stack with a top, 00EE takes it off and continues there (R70). -/
theorem exec_ret_top {s : State} {older : List Addr} {top : Addr} (h : s.stack = older ++ [top]) :
    exec .ret s = .next { s with stack := older, pc := top } := by
  rw [exec, execRet_eq]
  simp [stackTop, dropTop, setPc, h]

/-- On an empty stack 00EE writes `PC` alone (R70). -/
theorem exec_ret_empty {s : State} (h : s.stack = []) : exec .ret s = .next (setPc s 0x200) := by
  rw [exec, execRet_eq]
  simp [stackTop, dropTop, setPc, h]

/-- Only a return shortens the stack: of the stack's two writers, a call lengthens it. -/
theorem ret_of_stack_shorter {tr : Transaction} {s t : State} (h : transact tr s = .next t)
    (hlt : t.stack.length < s.stack.length) : tr = .step ∧ s.wait = none ∧ decodeWord (fetchWord s) = .ret := by
  obtain ⟨rfl, hwait, hret | ⟨nnn, hcall⟩⟩ :=
    stackChangesOnlyByCallAndReturn tr s t h fun heq => hlt.ne (congrArg List.length heq)
  · exact ⟨rfl, hwait, hret⟩
  · have hfetch : Fetches s (encode (.call nnn)) := ⟨hwait, by rw [← hcall, encodeOfDecodeIsTheWord]⟩
    have hlonger : t.stack.length = s.stack.length + 1 := by
      cases (step_call hfetch).symm.trans h
      simp
    omega

/-- Settles O30: a stack has a top or is empty, and a call leaves its `PC` on top of what was there. -/
theorem returnPopsOrRestarts : Obligations.ReturnPopsOrRestarts := by
  refine ⟨rfl, fun s => ?_, fun nnn s => ?_, fun _ _ _ => ret_of_stack_shorter⟩
  · obtain ⟨t, ht⟩ := exec_total .ret s
    refine ⟨t, ht, exec_onlyChanges ht, fun older top hs => ?_, fun hs => ?_⟩
    · cases (exec_ret_top hs).symm.trans ht
      exact ⟨rfl, rfl⟩
    · cases (exec_ret_empty hs).symm.trans ht
      exact ⟨rfl, hs⟩
  · exact ⟨_, _, rfl, exec_ret_top (older := s.stack) (top := s.pc) rfl, rfl, rfl⟩

/-- A step that fetches a return, on a stack with a top (R55, R70). -/
theorem step_ret_top {s : State} {older : List Addr} {top : Addr} (h : Fetches s (encode .ret))
    (hs : s.stack = older ++ [top]) :
    step s = .next (setLast { tickTimer s with stack := older, pc := top } (encode .ret)) := by
  obtain ⟨hwait, hword⟩ := h
  have hentry : (advancePc (tickTimer s)).stack = older ++ [top] := hs
  rw [step_fetch hwait, hword, decodeWord_encode rfl, exec_ret_top hentry]
  rfl

/-- A call and the return at its target come to two ticks, one write of `PC` and one of `LAST` (R70, R72, S5). -/
theorem step_call_ret {s : State} {nnn : Addr} (h : Fetches s (encode (.call nnn)))
    (hhigh : memRead s nnn.toNat = 0x00) (hlow : memRead s (nnn.toNat + 1) = 0xEE) :
    ∃ t, step s = .next t ∧
      step t = .next (setLast (setPc (tickTimer (tickTimer s)) (s.pc + 2)) (encode .ret)) := by
  refine ⟨_, step_call h, step_ret_top ⟨h.1, ?_⟩ rfl⟩
  show wordOfBytes (memRead s nnn.toNat) (memRead s (nnn.toNat + 1)) = encode .ret
  rw [hhigh, hlow]
  rfl

/-- Settles O31: the frame of the two steps together is that of the four writes they come to. -/
theorem callThenReturnComesBack : Obligations.CallThenReturnComesBack := by
  intro s nnn h hhigh hlow
  obtain ⟨t, hcall, hret⟩ := step_call_ret h hhigh hlow
  refine ⟨t, _, hcall, hret, BitVec.toNat_add .., ?_⟩
  have hticks : OnlyChanges (∅ ∪ ∅) ({.timer} ∪ {.timer}) s (tickTimer (tickTimer s)) :=
    (onlyChanges_setDt s _).trans (onlyChanges_setDt (tickTimer s) _)
  refine ((hticks.trans (onlyChanges_setPc _ _)).trans (onlyChanges_setLast _ _)).mono (by simp) ?_
  rintro p (((hp | hp) | hp) | hp) <;> simp_all

end Sys2Proof.Machine
end

section
/-! PROOFS. The conditional skips (41_skip.md): each is one skip under its own condition, so the target and the frame are
proved once, for any instruction that skips. -/

namespace Sys2Proof.Machine

/-- A skip taken adds 2 to `PC` mod 0x1000 (D2), one not taken leaves it: for an instruction that skips under `c`, where
`P` says that `c` holds and `Q` that it does not. -/
theorem exec_skips {i : Instr} {s : State} {c : Bool} {P Q : Prop} (h : exec i s = .next (skipIf c s))
    (htaken : P → c = true) (hnot : Q → c = false) :
    ∃ t, exec i s = .next t ∧ OnlyChanges ∅ {.pc} s t ∧
      (P → t.pc.toNat = (s.pc.toNat + 2) % 0x1000) ∧ (Q → t.pc = s.pc) := by
  refine ⟨_, h, onlyChanges_skipIf c s, fun hP => ?_, fun hQ => ?_⟩
  · rw [htaken hP, skipIf_true, advancePc_pc]
    exact BitVec.toNat_add ..
  · rw [hnot hQ, skipIf_false]

/-- Settles O33: the four conditions are the Boolean tests `==` and `!=` on the two bytes compared. -/
theorem comparingSkips : Obligations.ComparingSkips := fun _ _ _ _ _ =>
  ⟨exec_skips rfl beq_iff_eq.2 beq_false_of_ne, exec_skips rfl bne_iff_ne.2 bne_eq_false_iff_eq.2,
    exec_skips rfl beq_iff_eq.2 beq_false_of_ne, exec_skips rfl bne_iff_ne.2 bne_eq_false_iff_eq.2⟩

/-- The mask 0x0F is the remainder modulo 16: a byte selects the key its low four bits number (D12). -/
theorem keyIndex_val (b : Byte) : (keyIndex b).val = b.toNat % 16 := by
  have hmask : (b &&& 0x0F).toNat = b.toNat % 16 := (BitVec.toNat_and ..).trans (Nat.and_two_pow_sub_one_eq_mod _ 4)
  rw [keyIndex, Fin.val_ofNat, hmask, Nat.mod_mod]

/-- Settles O34: the key that V[x] selects is `k`, and the two conditions are its state and the negation of it. -/
theorem keySkips : Obligations.KeySkips := by
  intro x s k hk
  obtain rfl : keyIndex (reg s x) = k := Fin.ext ((keyIndex_val _).trans hk.symm)
  exact ⟨exec_skips rfl id id, exec_skips rfl (by simp) (by simp)⟩

end Sys2Proof.Machine
end

section
/-! PROOFS. Register load and arithmetic (42_alu.md): what a register reads after the two ways of writing a result, the flags
as facts about the operands, and the results as arithmetic modulo 256. -/

namespace Sys2Proof.Machine

/-- The number of a word of format XKK (R51). -/
theorem xkk_word_toNat (c : Nibble) (x : RegIx) (kk : Byte) :
    (c ++ regBits x ++ kk : Word).toNat = 0x1000 * c.toNat + 0x100 * x.val + kk.toNat := by
  rw [append_xkk_toNat, regBits_toNat]; omega

/-- The number of a word of format XYN (R51). -/
theorem xyn_word_toNat (c : Nibble) (x y : RegIx) (n : Nibble) :
    (c ++ regBits x ++ regBits y ++ n : Word).toNat =
      0x1000 * c.toNat + n.toNat + 0x100 * x.val + 0x10 * y.val := by
  rw [append_xyn_toNat, regBits_toNat, regBits_toNat]; omega

theorem reg_setReg_self (s : State) (r : RegIx) (b : Byte) : reg (setReg s r b) r = b :=
  (reg_setReg s r r b).trans (if_pos rfl)

/-- Settles O36: the formats XKK and XYN, and one register write each. -/
theorem loadsAndCopies : Obligations.LoadsAndCopies := fun x y kk s =>
  ⟨xkk_word_toNat 0x6#4 x kk, xyn_word_toNat 0x8#4 x y 0x0#4,
    ⟨_, rfl, reg_setReg_self s x _, onlyChanges_setReg s x _⟩, ⟨_, rfl, reg_setReg_self s x _, onlyChanges_setReg s x _⟩⟩

/-- Settles O37: one register write, of a sum of bytes, which wraps at the width of a byte. -/
theorem addImmediateWraps : Obligations.AddImmediateWraps := by
  intro x kk s
  refine ⟨xkk_word_toNat 0x7#4 x kk, _, rfl, ?_, onlyChanges_setReg s x _⟩
  rw [reg_setReg_self, BitVec.toNat_add]

/-- Settles O38: one register write each, of a byte combined bit by bit. -/
theorem logicOperationsAreBitwise : Obligations.LogicOperationsAreBitwise := by
  intro x y s
  refine ⟨⟨_, rfl, onlyChanges_setReg s x _, fun j => ?_⟩, ⟨_, rfl, onlyChanges_setReg s x _, fun j => ?_⟩,
    ⟨_, rfl, onlyChanges_setReg s x _, fun j => ?_⟩⟩
  · rw [reg_setReg_self, BitVec.getLsbD_or]
  · rw [reg_setReg_self, BitVec.getLsbD_and]
  · rw [reg_setReg_self, BitVec.getLsbD_xor]

/-- Settles O42: one register write, of the drawn byte under the mask, and one more draw. -/
theorem randomByteIsMasked : Obligations.RandomByteIsMasked := by
  intro x kk s
  have hresult : reg (nextDraw (setReg s x (randomByte s &&& kk))) x = Config.rnd s.draws &&& kk := reg_setReg_self ..
  refine ⟨_, rfl, hresult, rfl, exec_onlyChanges (i := .rnd x kk) rfl, fun j hj => ?_⟩
  rw [hresult, BitVec.getLsbD_and, hj, Bool.and_false]

/-- An instruction of class 8 with a flag (R89): the result is in V[x] unless x is F, and VF holds the flag. -/
theorem exec_writesResultFlag {i : Instr} {s : State} {x : RegIx} {result flag : Byte}
    (h : exec i s = .next (writeResultFlag s x result flag)) :
    ∃ t, exec i s = .next t ∧ OnlyChanges {x, 15} ∅ s t ∧ (x ≠ 15 → reg t x = result) ∧ reg t 15 = flag := by
  refine ⟨_, h, onlyChanges_writeResultFlag s x result flag, fun hx => ?_, ?_⟩
  · rw [reg_writeResultFlag, if_neg hx, if_pos rfl]
  · rw [reg_writeResultFlag, if_pos rfl]

/-! The flags (R11). -/

theorem flagByte_eq_one_iff (b : Bool) : flagByte b = 1 ↔ b = true := by
  cases b <;> decide

theorem flagByte_eq_zero_iff (b : Bool) : flagByte b = 0 ↔ b = false := by
  cases b <;> decide

theorem carryFlag_eq_one_iff (a b : Byte) : carryFlag a b = 1 ↔ a.toNat + b.toNat > 255 :=
  (flagByte_eq_one_iff _).trans decide_eq_true_iff

theorem carryFlag_eq_zero_iff (a b : Byte) : carryFlag a b = 0 ↔ ¬ a.toNat + b.toNat > 255 :=
  (flagByte_eq_zero_iff _).trans decide_eq_false_iff_not

theorem noBorrowFlag_eq_one_iff (a b : Byte) : noBorrowFlag a b = 1 ↔ a.toNat ≥ b.toNat :=
  (flagByte_eq_one_iff _).trans decide_eq_true_iff

theorem noBorrowFlag_eq_zero_iff (a b : Byte) : noBorrowFlag a b = 0 ↔ a.toNat < b.toNat :=
  ((flagByte_eq_zero_iff _).trans decide_eq_false_iff_not).trans Nat.not_le

/-- A sum of two bytes is over 255 exactly when wrapping makes it smaller than an operand (R96). -/
theorem sum_overflows_iff_wrapped_lt (a b : Byte) :
    a.toNat + b.toNat > 255 ↔ a.toNat > (a.toNat + b.toNat) % 256 := by
  have ha := a.isLt
  have hb := b.isLt
  omega

theorem shiftedOutLow_toNat (a : Byte) : (shiftedOutLow a).toNat = a.toNat % 2 :=
  (BitVec.toNat_and ..).trans (Nat.and_two_pow_sub_one_eq_mod _ 1)

theorem shiftedOutHigh_toNat (a : Byte) : (shiftedOutHigh a).toNat = a.toNat / 128 := by
  have hlt : a.toNat / 128 < 2 := by have ha := a.isLt; omega
  calc (shiftedOutHigh a).toNat
      = (a >>> 7).toNat % 2 := shiftedOutLow_toNat (a >>> 7)
    _ = a.toNat / 128 % 2 := by rw [BitVec.toNat_ushiftRight, Nat.shiftRight_eq_div_pow]
    _ = a.toNat / 128 := Nat.mod_eq_of_lt hlt

/-! The operations with a flag. -/

/-- Settles O39: the flag is the carry of the two operands, and a carry is also a wrapped sum below an operand. -/
theorem addRegistersWithCarry : Obligations.AddRegistersWithCarry := by
  intro x y s
  obtain ⟨t, ht, hframe, hresult, hflag⟩ := exec_writesResultFlag (i := .addReg x y) (s := s) rfl
  refine ⟨xyn_word_toNat 0x8#4 x y 0x4#4, t, ht, hframe, fun hx => ?_, ?_⟩
  · rw [hresult hx, BitVec.toNat_add]
  · rw [hflag, ← sum_overflows_iff_wrapped_lt]
    exact ⟨(carryFlag_eq_one_iff ..).2, (carryFlag_eq_zero_iff ..).2, carryFlag_eq_one_iff ..⟩

/-- An instruction that subtracts `b` from `a` (R97, R99): the difference wraps, and VF is 1 unless it borrows (D8). -/
theorem exec_subtracts {i : Instr} {s : State} {x : RegIx} {a b : Byte}
    (h : exec i s = .next (writeResultFlag s x (a - b) (noBorrowFlag a b))) :
    ∃ t, exec i s = .next t ∧ OnlyChanges {x, 15} ∅ s t ∧
      (x ≠ 15 → (reg t x).toNat = (a.toNat + 256 - b.toNat) % 256) ∧
      (a.toNat ≥ b.toNat → reg t 15 = 1) ∧ (a.toNat < b.toNat → reg t 15 = 0) := by
  obtain ⟨t, ht, hframe, hresult, hflag⟩ := exec_writesResultFlag h
  refine ⟨t, ht, hframe, fun hx => ?_, ?_⟩
  · have hb := b.isLt
    rw [hresult hx, BitVec.toNat_sub]
    omega
  · rw [hflag]
    exact ⟨(noBorrowFlag_eq_one_iff a b).2, (noBorrowFlag_eq_zero_iff a b).2⟩

/-- Settles O40: both subtract bytes read on entry, with the roles of V[x] and V[y] exchanged. -/
theorem subtractionsWithNoBorrowFlag : Obligations.SubtractionsWithNoBorrowFlag :=
  fun _ _ _ => ⟨exec_subtracts rfl, exec_subtracts rfl⟩

/-- Settles O41: a shift by one is a division or a multiplication by two, and the bit it loses is the flag. -/
theorem shiftsCaptureTheBitShiftedOut : Obligations.ShiftsCaptureTheBitShiftedOut := by
  intro x y s
  constructor
  · obtain ⟨t, ht, hframe, hresult, hflag⟩ := exec_writesResultFlag (i := .shr x y) (s := s) rfl
    refine ⟨t, ht, hframe, fun hx => ?_, hflag ▸ shiftedOutLow_toNat _⟩
    rw [hresult hx, BitVec.toNat_ushiftRight, Nat.shiftRight_eq_div_pow, pow_one]
  · obtain ⟨t, ht, hframe, hresult, hflag⟩ := exec_writesResultFlag (i := .shl x y) (s := s) rfl
    refine ⟨t, ht, hframe, fun hx => ?_, hflag ▸ shiftedOutHigh_toNat _⟩
    rw [hresult hx, BitVec.toNat_shiftLeft, Nat.shiftLeft_eq, pow_one]

end Sys2Proof.Machine
end

section
/-! PROOFS. The index register and the transfers between registers and memory (43_index_memory.md): `I` as arithmetic modulo
0x1000, the decimal digits of a byte, and the frame and the bytes of a store at `I`, proved once for both stores. -/

namespace Sys2Proof.Machine

/-- Settles O43: the class nibble A stands above the address, and the meaning writes `I` alone. -/
theorem loadIndex : Obligations.LoadIndex :=
  fun nnn s => ⟨append_nnn_toNat 0xA#4 nnn, _, rfl, rfl, onlyChanges_setI s nnn⟩

theorem zext12_toNat (b : Byte) : (zext12 b).toNat = b.toNat :=
  BitVec.toNat_setWidth_of_le (by decide)

/-- Five times a byte is at most 1275, so the product of R112 does not wrap. -/
theorem glyphAddress_toNat (b : Byte) : (glyphAddress b).toNat = b.toNat * 5 := by
  have hlt : b.toNat * 5 < 2 ^ 12 := by have hb := b.isLt; omega
  calc (glyphAddress b).toNat
      = (zext12 b).toNat * 5 % 2 ^ 12 := BitVec.toNat_mul ..
    _ = b.toNat * 5 := by rw [zext12_toNat, Nat.mod_eq_of_lt hlt]

/-- Settles O44: both write `I` alone, the one a sum that wraps at 12 bits, the other a product that fits them. -/
theorem indexArithmetic : Obligations.IndexArithmetic := by
  intro x s
  refine ⟨⟨_, rfl, ?_, onlyChanges_setI s _⟩, ⟨_, rfl, glyphAddress_toNat _, onlyChanges_setI s _⟩⟩
  rw [setI_i, BitVec.toNat_add, zext12_toNat]

/-- An instruction that stores `bs` at `I` (R34): byte j of them is read at `I + j`, and no other address and no other
piece of state changes; addresses wrap (D1). -/
theorem exec_stores {i : Instr} {s : State} {bs : List Byte} (hs : s.inv = true) (hlen : bs.length ≤ 0x1000)
    (h : exec i s = .next (storeBytes s (indexBase s) bs)) :
    ∃ t, exec i s = .next t ∧ OnlyChanges ∅ {.memory} s t ∧
      (∀ (j : Nat) (hj : j < bs.length), memRead t (indexBase s + j) = bs[j]) ∧
      ∀ a : Nat, (∀ j < bs.length, a % 0x1000 ≠ (indexBase s + j) % 0x1000) → memRead t a = memRead s a :=
  ⟨_, h, onlyChanges_storeBytes s _ bs, memRead_storeBytes_same hs _ bs hlen, memRead_storeBytes_other hs _ bs⟩

@[simp] theorem length_bcdDigits (b : Byte) : (bcdDigits b).length = 3 := rfl

/-- The digits are below 256, so each is the number its byte holds (R113). -/
theorem bcdDigits_toNat (b : Byte) : (bcdDigits b)[0].toNat = b.toNat / 100 ∧
    (bcdDigits b)[1].toNat = b.toNat / 10 % 10 ∧ (bcdDigits b)[2].toNat = b.toNat % 10 := by
  have hb := b.isLt
  refine ⟨Nat.mod_eq_of_lt ?_, Nat.mod_eq_of_lt ?_, Nat.mod_eq_of_lt ?_⟩ <;> omega

/-- Settles O45: a store of three bytes, which are the digits. -/
theorem bcdDigitsAreStored : Obligations.BcdDigitsAreStored := by
  intro x s hs
  obtain ⟨t, ht, hframe, hdigit, hother⟩ := exec_stores (i := .ldB x) (bs := bcdDigits (reg s x)) hs (by simp) rfl
  obtain ⟨hhundreds, htens, hones⟩ := bcdDigits_toNat (reg s x)
  refine ⟨t, ht, hframe, ?_, ?_, ?_, hother⟩
  · exact (congrArg BitVec.toNat (hdigit 0 (by simp))).trans hhundreds
  · exact (congrArg BitVec.toNat (hdigit 1 (by simp))).trans htens
  · exact (congrArg BitVec.toNat (hdigit 2 (by simp))).trans hones

/-- Settles O46: a store of the x + 1 registers up to V[x], which are the registers `r ≤ x`. -/
theorem registersAreStored : Obligations.RegistersAreStored := by
  intro x s hs
  have hlen := length_regsUpTo s x
  obtain ⟨t, ht, hframe, hbyte, hother⟩ :=
    exec_stores (i := .stRegs x) (bs := regsUpTo s x) hs (by omega) rfl
  refine ⟨t, ht, hframe, fun r hr => ?_, fun a ha => hother a fun j hj => ha j (by omega)⟩
  have hlt : r.val < (regsUpTo s x).length := hlen ▸ Nat.lt_succ_of_le hr
  rw [hbyte r.val hlt, getElem_regsUpTo]

/-- Settles O47: loading the x + 1 registers up to V[x] reads each at its own offset, also when r is F. -/
theorem registersAreLoaded : Obligations.RegistersAreLoaded := by
  intro x s
  refine ⟨_, rfl, onlyChanges_loadRegs s (indexBase s) x, fun r hr => ?_⟩
  rw [reg_loadRegs _ _ _ x.isLt, if_pos (Nat.lt_succ_of_le hr)]

end Sys2Proof.Machine
end

section
/-! PROOFS. The display (44_display.md): what the clear and the drawn sprite leave on every pixel and in VF, read off the
laws of the drawing loop. -/

namespace Sys2Proof.Machine

/-- Settles O49: the blank display has no set pixel, whatever the open parameter makes of `DIRTY` (D18). -/
theorem clearBlanksTheDisplay : Obligations.ClearBlanksTheDisplay :=
  fun s => ⟨_, rfl, pixel_clearPixels s, rfl, onlyChanges_clearDisplay _ s⟩

/-- Resetting VF before the draw touches no pixel and no byte of the sprite, so the loop's law is the sprite's (R121). -/
theorem pixel_drawSprite (x0 y0 : Byte) (n : Fin 16) (s : State) (px : Col) (py : Row) :
    pixel (drawSprite x0 y0 n.val s) px py = Bool.xor (pixel s px py) (rowsCover s x0 y0 n.val px py) :=
  pixel_drawRows x0 y0 (setReg s vf 0) n.val n.isLt.le px py

/-- VF starts at 0, and the loop raises it to 1 exactly on a collision with the pixels on entry (R121). -/
theorem reg_vf_drawSprite (x0 y0 : Byte) (n : Fin 16) (s : State) :
    reg (drawSprite x0 y0 n.val s) vf = if rowsCollide s x0 y0 n.val then 1 else 0 := by
  have hloop : reg (drawSprite x0 y0 n.val s) vf =
      if vf = vf ∧ rowsCollide s x0 y0 n.val = true then 1 else reg (setReg s vf 0) vf :=
    reg_drawRows x0 y0 (setReg s vf 0) n.val n.isLt.le vf
  simpa using hloop

theorem rowsCollide_iff_spriteCovers (s : State) (x0 y0 : Byte) (n : Nat) :
    rowsCollide s x0 y0 n = true ↔ ∃ px py, SpriteCovers s x0 y0 n px py ∧ pixel s px py = true := by
  simp only [rowsCollide_iff, rowsCover_iff]

/-- Settles O50: a pixel is XORed with whether the sprite covers it, and VF is set exactly on a collision. -/
theorem drawFlipsWhatTheSpriteCovers : Obligations.DrawFlipsWhatTheSpriteCovers := by
  intro x y n s
  have hpixel := pixel_drawSprite (reg s x) (reg s y) n s
  have hflag := reg_vf_drawSprite (reg s x) (reg s y) n s
  have hcollide := rowsCollide_iff_spriteCovers s (reg s x) (reg s y) n.val
  refine ⟨_, rfl, fun px py hcov => ?_, fun px py hcov => ?_, fun hhit => ?_, fun hclear => ?_, rfl,
    onlyChanges_drawSprite _ _ n s⟩
  · rw [hpixel, (rowsCover_iff ..).2 hcov, Bool.xor_true]
  · rw [hpixel, Bool.eq_false_iff.2 (mt (rowsCover_iff ..).1 hcov), Bool.xor_false]
  · exact hflag.trans (if_pos (hcollide.2 hhit))
  · refine hflag.trans (if_neg fun h => ?_)
    obtain ⟨px, py, hcov, hset⟩ := hcollide.1 h
    exact Bool.false_ne_true ((hclear px py hcov).symm.trans hset)

/-- Which pixels a sprite covers depends on `I` and memory alone. -/
theorem rowsCover_congr {s t : State} (hi : t.i = s.i) (hmem : ∀ a, memRead t a = memRead s a) (x0 y0 : Byte) (n : Nat) :
    rowsCover t x0 y0 n = rowsCover s x0 y0 n := by
  funext px py
  simp only [rowsCover, indexBase, hi, hmem]

/-- Settles O51: the first draw leaves `I` and memory, so the second XORs every pixel with the same bit again. -/
theorem drawingTwiceRestoresTheDisplay : Obligations.DrawingTwiceRestoresTheDisplay := by
  intro x y x' y' n s t u hst hx hy htu px py
  have hframe := exec_onlyChanges hst
  have hcover : rowsCover t (reg s x) (reg s y) n.val = rowsCover s (reg s x) (reg s y) n.val :=
    rowsCover_congr (hframe.rest .index (by simp [writtenParts])) (hframe.rest .memory (by simp [writtenParts])) ..
  have hfirst : pixel t px py = Bool.xor (pixel s px py) (rowsCover s (reg s x) (reg s y) n.val px py) := by
    cases hst; exact pixel_drawSprite ..
  have hsecond : pixel u px py = Bool.xor (pixel t px py) (rowsCover t (reg t x') (reg t y') n.val px py) := by
    cases htu; exact pixel_drawSprite ..
  rw [hsecond, hfirst, hx, hy, hcover, Bool.xor_assoc, Bool.xor_self, Bool.xor_false]

end Sys2Proof.Machine
end

section
/-! PROOFS. The timer and the key-wait (45_timer_key.md): the meanings of Fx07, Fx15 and Fx0A, and the timer from the step
that sets it to the step that reads it. -/

namespace Sys2Proof.Machine

/-- Settles O52: one write each, of a register, of the timer and of the key-wait; D13: no key is looked at. -/
theorem timerAndKeyWaitInstructions : Obligations.TimerAndKeyWaitInstructions := fun x s =>
  ⟨⟨_, rfl, reg_setReg_self s x s.dt, onlyChanges_setReg s x s.dt⟩, ⟨_, rfl, rfl, onlyChanges_setDt s (reg s x)⟩,
    ⟨_, rfl, rfl, onlyChanges_setWait s (some x)⟩⟩

/-- A step that fetches an instruction's word runs it on the ticked and advanced state and latches the word (R55). -/
theorem step_of_fetches {s t : State} {i : Instr} (hi : i.wf = true) (h : Fetches s (encode i))
    (ht : exec i (advancePc (tickTimer s)) = .next t) : step s = .next (setLast t (encode i)) := by
  obtain ⟨hwait, hfetch⟩ := h
  rw [step_fetch hwait, hfetch, decodeWord_encode hi, ht]
  rfl

/-- A timer set in a step is not ticked in it again: the tick comes before the instruction (R55, R132). -/
theorem dt_step_ldDtVx {x : RegIx} {s t : State} (h : Fetches s (encode (.ldDtVx x))) (hst : step s = .next t) :
    t.dt = reg s x := by
  cases (step_of_fetches rfl h rfl).symm.trans hst
  rfl

/-- A step reads the timer as its own tick leaves it (R55, R130). -/
theorem reg_step_ldVxDt {x : RegIx} {s t : State} (h : Fetches s (encode (.ldVxDt x))) (hst : step s = .next t) :
    reg t x = (tickTimer s).dt := by
  cases (step_of_fetches rfl h rfl).symm.trans hst
  exact reg_setReg_self (advancePc (tickTimer s)) x _

/-- Settles O53: one tick lies between the write of the timer and the read, and a tick stops at 0. -/
theorem timerSetThenReadIsOneLess : Obligations.TimerSetThenReadIsOneLess := by
  intro x y s t u hset hst hread htu
  have hdt : t.dt = reg s x := dt_step_ldDtVx hset hst
  have hreg : reg u y = (tickTimer t).dt := reg_step_ldVxDt hread htu
  exact ⟨hdt, by rw [hreg, dt_tickTimer, hdt]⟩

end Sys2Proof.Machine
end

section
/-! PROOFS. Every instruction, step and sequence of host transactions completes (R54, R140, R141). -/

namespace Sys2Proof.Machine

/-- A suspended step only ticks; a fetching step latches what its instruction answers. -/
theorem step_total (s : State) : SafeStep s := by
  cases hw : s.wait with
  | some r => exact ⟨_, step_suspended hw⟩
  | none =>
    obtain ⟨t, ht⟩ := exec_total (decodeWord (fetchWord s)) (advancePc (tickTimer s))
    exact ⟨setLast t (fetchWord s), by rw [step_fetch hw, ht]; rfl⟩

theorem transact_total (tr : Transaction) (s : State) : ∃ t, transact tr s = .next t := by
  cases tr with
  | step => exact step_total s
  | _ => exact ⟨_, rfl⟩

theorem transactAll_total (trs : List Transaction) (s : State) : ∃ t, transactAll trs s = .next t := by
  induction trs generalizing s with
  | nil => exact ⟨s, rfl⟩
  | cons tr trs ih =>
    obtain ⟨t, ht⟩ := transact_total tr s
    rw [transactAll_cons ht]
    exact ih t

/-- Settles O9: totality of an instruction gives that of a step, and so that of a sequence of transactions. -/
theorem nothingEverStops : Obligations.NothingEverStops :=
  ⟨exec_total, step_total, transactAll_total⟩

end Sys2Proof.Machine
end

section
/-! PROOFS. A key press and a key release (R145, R146): what each writes, with a key-wait pending and with none. -/

namespace Sys2Proof.Machine

theorem zext8_toNat (k : KeyIx) : (zext8 k).toNat = k.val := by
  rw [zext8, BitVec.toNat_ofNat, Nat.mod_eq_of_lt (by omega)]

theorem keyPress_of_wait {s : State} {r : RegIx} (h : s.wait = some r) (k : KeyIx) :
    keyPress k s = setWait (setReg (setKey s k true) r (zext8 k)) none := by
  simp [keyPress, h]

theorem keyPress_of_noWait {s : State} (h : s.wait = none) (k : KeyIx) : keyPress k s = setKey s k true := by
  simp [keyPress, h]

/-- No key-wait is pending after a press, whether or not one was before (R145). -/
theorem wait_keyPress (k : KeyIx) (s : State) : (keyPress k s).wait = none := by
  cases h : s.wait with
  | some r => rw [keyPress_of_wait h, setWait_wait]
  | none => rw [keyPress_of_noWait h, setKey_wait, h]

/-- The awaited register holds the key's code at once (D14). -/
theorem reg_keyPress_awaited {s : State} {r : RegIx} (h : s.wait = some r) (k : KeyIx) :
    (reg (keyPress k s) r).toNat = k.val := by
  rw [keyPress_of_wait h, reg_setWait, reg_setReg_self, zext8_toNat]

/-- A press right after another finds no key-wait, so it writes no register (R145). -/
theorem reg_keyPress_keyPress (k k' : KeyIx) (s : State) (r : RegIx) :
    reg (keyPress k' (keyPress k s)) r = reg (keyPress k s) r := by
  rw [keyPress_of_noWait (wait_keyPress k s), reg_setKey]

theorem fetchWord_keyPress (k : KeyIx) (s : State) : fetchWord (keyPress k s) = fetchWord s := by
  cases h : s.wait with
  | some r => rw [keyPress_of_wait h]; rfl
  | none => rw [keyPress_of_noWait h]; rfl

/-- Settles O54: the frame is that of a press, in which the only register is the awaited one, if any. -/
theorem keyPressSetsKeyAndResolvesTheWait : Obligations.KeyPressSetsKeyAndResolvesTheWait := by
  intro k s
  refine ⟨?_, fun j hj => ?_, fun hw => ?_, fun r hw => ⟨wait_keyPress k s, reg_keyPress_awaited hw k, ?_, fun k' => ?_⟩⟩
  · rw [keyState_keyPress, if_pos rfl]
  · rw [keyState_keyPress, if_neg hj]
  · rw [keyPress_of_noWait hw]
    exact onlyChanges_setKey s k true
  · have hreg : {q | s.wait = some q} ⊆ {r} := fun q hq => Option.some.inj (hq.symm.trans hw)
    exact (keyPress_onlyChanges k s).mono hreg subset_rfl
  · rw [reg_keyPress_keyPress, reg_keyPress_awaited hw]

/-- Settles O55: the press leaves no key-wait and the word at `PC` as it was, so the next step fetches and runs it. -/
theorem pressResumesFetching : Obligations.PressResumesFetching := by
  intro k r s i _ hi hfetch
  have hfetches : Fetches (keyPress k s) (encode i) := ⟨wait_keyPress k s, (fetchWord_keyPress k s).trans hfetch⟩
  obtain ⟨t, ht⟩ := exec_total i (advancePc (tickTimer (keyPress k s)))
  exact ⟨t, ht, step_of_fetches hi hfetches ht⟩

/-- Writing a key's own state back changes nothing. -/
theorem setKey_keyState (s : State) (k : KeyIx) : setKey s k (keyState s k) = s := by
  unfold setKey keyState
  rw [Vector.set_getElem_self]

/-- Settles O56: a release writes one key, and writing 0 over 0 is no change. -/
theorem keyReleaseClearsOnlyItsKey : Obligations.KeyReleaseClearsOnlyItsKey := by
  intro k s
  refine ⟨?_, fun j hj => ?_, onlyChanges_setKey s k false, fun hk => ?_⟩
  · rw [keyRelease, keyState_setKey, if_pos rfl]
  · rw [keyRelease, keyState_setKey, if_neg hj]
  · rw [keyRelease, ← hk, setKey_keyState]

end Sys2Proof.Machine
end

section
/-! PROOFS. The key-wait over steps and transactions (R131, R162): what a suspended step does, and how a key-wait is entered
and left. -/

namespace Sys2Proof.Machine

/-- A step made in a key-wait, before other transactions (R55 line 2). -/
theorem transactAll_step_of_wait {s : State} {r : RegIx} (hw : s.wait = some r) (trs : List Transaction) :
    transactAll (.step :: trs) s = transactAll trs (setLast (tickTimer s) 0x0000) :=
  transactAll_cons (tr := .step) (step_suspended hw) trs

/-- Settles O8, by induction on the number of steps: each ticks, latches the sentinel and leaves the key-wait pending. -/
theorem keyWaitOnlyCountsDown : Obligations.KeyWaitOnlyCountsDown := by
  intro n
  induction n with
  | zero =>
    intro s r hw
    rw [List.replicate_one, transactAll_step_of_wait hw, transactAll_nil, tickTimer_eq]
    rfl
  | succ n ih =>
    intro s r hw
    have hcount : (tickTimer s).dt.toNat - (n + 1) = s.dt.toNat - (n + 1 + 1) := by rw [dt_tickTimer]; omega
    rw [List.replicate_succ, transactAll_step_of_wait hw, ih (setLast (tickTimer s) 0x0000) r hw, setLast_dt, hcount]
    rfl

/-- Only Fx0A lists the key-wait as written. -/
theorem keyWait_mem_writtenParts {i : Instr} (h : Part.keyWait ∈ writtenParts i) : ∃ x, i = .ldVxK x := by
  cases i with
  | ldVxK x => exact ⟨x, rfl⟩
  | _ => simp [writtenParts] at h

/-- Only Fx15 lists the timer as written. -/
theorem timer_mem_writtenParts {i : Instr} (h : Part.timer ∈ writtenParts i) : ∃ x, i = .ldDtVx x := by
  cases i with
  | ldDtVx x => exact ⟨x, rfl⟩
  | _ => simp [writtenParts] at h

/-- A step that fetches Fx0A leaves a key-wait for the register it names (R131). -/
theorem wait_step_ldVxK {s t : State} {x : RegIx} (hw : s.wait = none) (hi : decodeWord (fetchWord s) = .ldVxK x)
    (h : step s = .next t) : t.wait = some x := by
  rw [step_fetch hw, hi] at h
  cases h
  rfl

/-- How a transaction can change the key-wait: a fetching step of Fx0A enters one, a press ends one. -/
theorem transact_changes_wait {tr : Transaction} {s t : State} (h : transact tr s = .next t) (hne : t.wait ≠ s.wait) :
    (tr = .step ∧ s.wait = none ∧ ∃ x, decodeWord (fetchWord s) = .ldVxK x ∧ t.wait = some x) ∨
    ∃ k, tr = .keyPress k ∧ t = keyPress k s := by
  rcases transact_changes (p := .keyWait) h hne with ⟨rfl, hw, hp⟩ | ⟨-, hp⟩ | ⟨k, rfl, -⟩ | ⟨k, -, hp⟩ | ⟨-, hp⟩
  · obtain ⟨x, hx⟩ := keyWait_mem_writtenParts hp
    exact .inl ⟨rfl, hw, x, hx, wait_step_ldVxK hw hx h⟩
  · simp at hp
  · exact .inr ⟨k, rfl, (Host.Outcome.next.inj h).symm⟩
  · cases hp
  · cases hp

/-- Settles O25: entering is the step of Fx0A, for a press leaves no key-wait; leaving is the press, for a step of Fx0A
starts with none. -/
theorem keyWaitEnteredByFx0ALeftByAPress : Obligations.KeyWaitEnteredByFx0ALeftByAPress := by
  intro tr s t r h
  refine ⟨fun hs ht => ?_, fun hs ht => ?_⟩
  · rcases transact_changes_wait h (by simp [hs, ht]) with ⟨rfl, -, x, hx, htx⟩ | ⟨k, -, rfl⟩
    · obtain rfl : r = x := Option.some.inj (ht.symm.trans htx)
      exact ⟨rfl, hx⟩
    · simp [wait_keyPress] at ht
  · rcases transact_changes_wait h (by rwa [hs]) with ⟨-, hw, -⟩ | ⟨k, rfl, rfl⟩
    · simp [hs] at hw
    · exact ⟨k, rfl, wait_keyPress k s, reg_keyPress_awaited hs k⟩

end Sys2Proof.Machine
end

section
/-! PROOFS. The timer over every transaction (R18, R156, R157). -/

namespace Sys2Proof.Machine

/-- Settles O22: the timer is written by the tick that every step starts with and, after it, by Fx15 only. -/
theorem timerTicksOncePerStep : Obligations.TimerTicksOncePerStep := by
  intro tr s t h
  refine ⟨fun htr => ?_, ?_⟩
  · by_contra hne
    rcases transact_changes (p := .timer) h hne with ⟨rfl, -⟩ | ⟨rfl, -⟩ | ⟨k, -, hp⟩ | ⟨k, -, hp⟩ | ⟨-, hp⟩
    · exact htr rfl
    · exact htr rfl
    · simp at hp
    · cases hp
    · cases hp
  · rintro rfl hrun
    rcases step_cases h with ⟨r, -, rfl⟩ | ⟨hw, u, hu, rfl⟩
    · exact dt_tickTimer s
    · have hnot : Part.timer ∉ writtenParts (decodeWord (fetchWord s)) := by
        intro hp
        obtain ⟨x, hx⟩ := timer_mem_writtenParts hp
        exact hrun.resolve_left (not_not_intro hw) x hx
      have hdt : u.dt = (tickTimer s).dt := (exec_onlyChanges hu).rest .timer hnot
      rw [setLast_dt, hdt, dt_tickTimer]

end Sys2Proof.Machine
end

section
/-! PROOFS. The host's reads and its acknowledge of the display (R147, R148, R149). -/

namespace Sys2Proof.Machine

/-- Settles O57: each reply is a field that is read, and no read reads the stack, the timer, the keys or the key-wait. -/
theorem displayAndDebugReads : Obligations.DisplayAndDebugReads := by
  intro s
  refine ⟨⟨s.px, rfl, fun _ _ => rfl⟩, rfl, rfl, fun _ => rfl, rfl, rfl, rfl, fun _ => rfl, rfl, ?_⟩
  intro tr stk d ks w
  cases tr <;> rfl

end Sys2Proof.Machine
end

section
/-! PROOFS. Where the machine stops for practice (R181): with the timer at 0, a self-jump and a key-wait. -/

namespace Sys2Proof.Machine

/-- The tick stops at 0 (R156). -/
theorem tickTimer_of_dt_eq_zero {s : State} (h : s.dt = 0) : tickTimer s = s := by
  rw [tickTimer, if_pos h, ← h]
  rfl

/-- Latching the word that is latched already changes nothing. -/
theorem setLast_of_last_eq {s : State} {w : Word} (h : s.last = w) : setLast s w = s := by
  subst h
  rfl

/-- A jump overwrites the advance of `PC` (R71). -/
theorem exec_jp_advancePc (nnn : Addr) (s : State) : exec (.jp nnn) (advancePc s) = .next (setPc s nnn) := rfl

/-- A jump to itself only ticks the timer and latches its word (R71, R181). -/
theorem step_selfJump {s : State} (h : Fetches s (encode (.jp s.pc))) :
    step s = .next (setLast (tickTimer s) (encode (.jp s.pc))) :=
  step_of_fetches rfl h (exec_jp_advancePc s.pc (tickTimer s))

/-- Settles O12: a self-jump and a suspended step tick and latch, and at these states both change nothing. -/
theorem selfJumpAndWaitAreFixedPoints : Obligations.SelfJumpAndWaitAreFixedPoints := by
  refine ⟨fun s hdt hfetch hlast => ?_, fun s r hdt hwait hlast => ?_⟩
  · rw [step_selfJump hfetch, tickTimer_of_dt_eq_zero hdt, setLast_of_last_eq hlast]
  · rw [step_suspended hwait, tickTimer_of_dt_eq_zero hdt, setLast_of_last_eq hlast]

end Sys2Proof.Machine
end

section
/-! PROOFS. Construction (R170, R171, R173): byte runs that do not wrap, what the font and the program image leave in
memory, and that nothing but memory differs from the reset state. -/

namespace Sys2Proof.Machine

theorem ea_of_lt {a : Nat} (h : a < 0x1000) : ea a = a := Nat.mod_eq_of_lt h

/-- What an address below 0x1000 reads as after a byte run that ends below 0x1000: its byte of the run, or as before. -/
theorem memRead_storeBytes {s : State} (hs : s.inv = true) {a : Nat} {bs : List Byte} (hend : a + bs.length ≤ 0x1000)
    {c : Nat} (hc : c < 0x1000) :
    memRead (storeBytes s a bs) c = if a ≤ c then bs.getD (c - a) (memRead s c) else memRead s c := by
  by_cases hin : a ≤ c ∧ c - a < bs.length
  · obtain ⟨hac, hlt⟩ := hin
    have hsame := memRead_storeBytes_same hs a bs (by omega) (c - a) hlt
    rw [Nat.add_sub_cancel' hac] at hsame
    rw [if_pos hac, List.getD_eq_getElem _ _ hlt, hsame]
  · have hother : memRead (storeBytes s a bs) c = memRead s c := by
      refine memRead_storeBytes_other hs a bs c fun j hj => ?_
      rw [ea_of_lt hc, ea_of_lt (by omega)]
      omega
    rw [hother]
    split
    next hac => rw [List.getD_eq_default _ _ (by omega)]
    next => rfl

/-- Reset memory is the default font and zero above it (R31, R172). -/
theorem memRead_reset {a : Nat} (ha : a < 0x1000) : memRead State.reset a = defaultFont.getD a 0 := by
  have hread : memRead State.reset a = unlistedByte (ea a) := rfl
  rw [hread, ea_of_lt ha, unlistedByte]

theorem length_defaultFont : defaultFont.length = 80 := rfl

/-- The reset state with a font of its own at 0x000: construction before the program image (R171). -/
def resetWithFont (font : Vector Byte 80) : State := storeBytes State.reset 0x000 font.toList

theorem construct_of_fits (font : Vector Byte 80) {rom : List Byte} (h : rom.length < 3584) :
    construct font rom = ⟨storeBytes (resetWithFont font) 0x200 rom, false⟩ := if_pos h

theorem construct_of_tooLong (font : Vector Byte 80) {rom : List Byte} (h : ¬ rom.length < 3584) :
    construct font rom = ⟨resetWithFont font, true⟩ := if_neg h

theorem inv_resetWithFont (font : Vector Byte 80) : (resetWithFont font).inv = true := inv_storeBytes inv_reset _ _

/-- The font at 0x000 to 0x04F and zero above it (R31, R171). -/
theorem memRead_resetWithFont (font : Vector Byte 80) {a : Nat} (ha : a < 0x1000) :
    memRead (resetWithFont font) a = font.toList.getD a 0 := by
  have hlen : font.toList.length = 80 := font.length_toList
  rw [resetWithFont, memRead_storeBytes inv_reset (by omega) ha, if_pos (Nat.zero_le a), Nat.sub_zero]
  by_cases hfont : a < 80
  · rw [List.getD_eq_getElem _ _ (by omega), List.getD_eq_getElem]
  · rw [memRead_reset ha, List.getD_eq_default defaultFont _ (by rw [length_defaultFont]; omega)]

/-- Below 0x200 construction leaves the font and zero above it, whatever the image (R171). -/
theorem memRead_construct_below (font : Vector Byte 80) (rom : List Byte) {a : Nat} (ha : a < 0x200) :
    memRead (construct font rom).state a = font.toList.getD a 0 := by
  rw [← memRead_resetWithFont font (by omega : a < 0x1000)]
  by_cases hrom : rom.length < 3584
  · rw [construct_of_fits font hrom, memRead_storeBytes (inv_resetWithFont font) (by omega) (by omega),
      if_neg (by omega)]
  · rw [construct_of_tooLong font hrom]

/-- Settles O58: the font is written below 0x200, and an image that fits is written from 0x200 up over zeros. -/
theorem constructionLoadsFontAndProgram : Obligations.ConstructionLoadsFontAndProgram := by
  intro font rom
  have hlen : font.toList.length = 80 := font.length_toList
  have habove {a : Nat} (h : 80 ≤ a) : font.toList.getD a 0 = 0 := List.getD_eq_default _ _ (by omega)
  refine ⟨?_, fun a ha => ?_, fun a hfont ha => ?_, fun a h200 ha hrom => ?_, fun a h200 ha hrom => ?_⟩
  · by_cases hrom : rom.length < 3584
    · simp [construct_of_fits font hrom, hrom]
    · simp [construct_of_tooLong font hrom, Nat.le_of_not_lt hrom]
  · rw [memRead_construct_below font rom (by omega), List.getD_eq_getElem _ _ (by omega), Vector.getElem_toList]
  · rw [memRead_construct_below font rom ha, habove hfont]
  · rw [construct_of_fits font hrom, memRead_storeBytes (inv_resetWithFont font) (by omega) ha, if_pos h200,
      memRead_resetWithFont font ha, habove (by omega)]
  · rw [construct_of_tooLong font (by omega), memRead_resetWithFont font ha, habove (by omega)]

/-- Construction writes memory and leaves every other field as at reset. -/
theorem construct_state_eq (font : Vector Byte 80) (rom : List Byte) :
    (construct font rom).state = { State.reset with mem := (construct font rom).state.mem } := by
  by_cases hrom : rom.length < 3584
  · rw [construct_of_fits font hrom, storeBytes_eq, resetWithFont, storeBytes_eq]
  · rw [construct_of_tooLong font hrom]
    exact storeBytes_eq State.reset _ _

/-- Settles O59: every field but memory is that of the reset state. -/
theorem constructionResetsTheRest : Obligations.ConstructionResetsTheRest := by
  intro font rom
  dsimp only
  rw [construct_state_eq]
  refine ⟨fun r => ?_, rfl, rfl, rfl, fun x y => ?_, rfl, rfl, fun k => ?_, rfl⟩
  · exact Vector.getElem_replicate r.isLt
  · simp [pixel, State.reset]
  · exact Vector.getElem_replicate k.isLt

/-- Writing the byte that is read already changes nothing: the canonical form keeps no trace of the write. -/
theorem memWrite_memRead {s : State} (hs : s.inv = true) (a : Nat) : memWrite s a (memRead s a) = s := by
  have hread (c : Nat) : memRead (memWrite s a (memRead s a)) c = memRead s c := by
    rw [memRead_memWrite hs]
    split
    next hc => rw [memRead, memRead, hc]
    next => rfl
  have hmem : (memWrite s a (memRead s a)).mem = s.mem := by
    refine canonicalMemoriesAreExtensional _ _ (inv_memWrite hs a _) hs fun c hc => ?_
    rw [← ea_of_lt hc]
    exact hread c
  rw [memWrite_mem] at hmem
  rw [memWrite, hmem]

/-- Storing the bytes that are read already changes nothing. -/
theorem storeBytes_of_memRead_eq {s : State} (hs : s.inv = true) (a : Nat) (bs : List Byte)
    (h : ∀ (j : Nat) (hj : j < bs.length), memRead s (a + j) = bs[j]) : storeBytes s a bs = s := by
  induction bs generalizing a with
  | nil => rfl
  | cons b bs ih =>
    have hb : memRead s a = b := h 0 (by simp)
    rw [storeBytes, ← hb, memWrite_memRead hs]
    refine ih (a + 1) fun j hj => ?_
    rw [Nat.add_assoc, Nat.add_comm 1 j]
    exact h (j + 1) (by simpa using hj)

/-- Settles O60: the default font is what reset memory reads as already, and an empty image writes nothing. -/
theorem resetIsTheDefaultConstruction : Obligations.ResetIsTheDefaultConstruction := by
  intro font hfont
  have hreset : storeBytes State.reset 0x000 defaultFont = State.reset :=
    storeBytes_of_memRead_eq inv_reset _ _ fun j hj => by
      have hlt : j < 80 := hj
      rw [Nat.zero_add, memRead_reset (by omega), List.getD_eq_getElem _ _ hj]
  rw [construct_of_fits font (by decide), resetWithFont, hfont, hreset]
  rfl

end Sys2Proof.Machine
end
